-- ==== Sys2Proof/Word.lean ====
section
/-! DEFINITION. The word types of the spec: `byte`, `word` and `u64` (00_scope.md R8). Every value is unsigned. -/

namespace Sys2Proof

/-- An 8-bit unsigned value (R8). -/
abbrev Byte := BitVec 8

/-- A 32-bit unsigned value (R8): a register, a hash word, a command word. -/
abbrev Word := BitVec 32

/-- A 64-bit unsigned value, the spec's `u64` (R8): TS, COUNTER, LEN, KEYLEN. -/
abbrev U64 := BitVec 64

end Sys2Proof
end

