-- ==== Sys2Proof/Syntax.lean ====
section
/-! DEFINITION. The block's instructions: the twelve commands of 30_encoding.md R84, one constructor per row of spec/opcode_table.json. `n` is the byte count field N, bits 15:8 of the command word (R80, R81, R83). -/

namespace Sys2Proof

/-- A command (30_encoding.md R84). -/
inductive Instr where
  /-- SHA_INIT, OPC 0x01 (40_sha1.md R114) -/
  | shaInit
  /-- SHA_UPDATE N, OPC 0x02 (40_sha1.md R115) -/
  | shaUpdate (n : Byte)
  /-- SHA_FINAL, OPC 0x03 (40_sha1.md R116) -/
  | shaFinal
  /-- SHA_COMPRESS, OPC 0x04 (40_sha1.md R117) -/
  | shaCompress
  /-- SHA_SETH, OPC 0x05 (40_sha1.md R118) -/
  | shaSeth
  /-- HMAC_INIT, OPC 0x11 (41_hmac.md R148) -/
  | hmacInit
  /-- HMAC_KEY N, OPC 0x12 (41_hmac.md R149) -/
  | hmacKey (n : Byte)
  /-- HMAC_START, OPC 0x13 (41_hmac.md R150) -/
  | hmacStart
  /-- HMAC_MSG N, OPC 0x14 (41_hmac.md R151) -/
  | hmacMsg (n : Byte)
  /-- HMAC_FINAL, OPC 0x15 (41_hmac.md R152) -/
  | hmacFinal
  /-- TOTP_GEN, OPC 0x21 (42_totp.md R181) -/
  | totpGen
  /-- TOTP_TRUNC, OPC 0x22 (42_totp.md R182) -/
  | totpTrunc
deriving DecidableEq, Repr

end Sys2Proof
end

