-- ==== Sys2Proof/WellFormed.lean ====
section
/-! DEFINITION. When a command is well formed: the byte count of an N-format command is 0..64 (30_encoding.md R81, R88). The Z-format commands carry no operand (R82). -/

namespace Sys2Proof

/-- The largest byte count of one command: DIN holds 64 bytes (30_encoding.md R81). -/
def maxCount : Nat := 64

/-- The check of 30_encoding.md R81 and R88. -/
def Instr.wf : Instr → Bool
  | .shaInit => true
  | .shaUpdate n => n.toNat ≤ maxCount
  | .shaFinal => true
  | .shaCompress => true
  | .shaSeth => true
  | .hmacInit => true
  | .hmacKey n => n.toNat ≤ maxCount
  | .hmacStart => true
  | .hmacMsg n => n.toNat ≤ maxCount
  | .hmacFinal => true
  | .totpGen => true
  | .totpTrunc => true

/-- A command with legal fields. -/
abbrev Instr.WellFormed (i : Instr) : Prop := i.wf = true

end Sys2Proof
end

