-- ==== Sys2Proof/Decode.lean ====
section
/-! DEFINITION. The decoder of command words (30_encoding.md R80 to R90), total and rejecting by name, then the encoder, written from the same table (R84), and the command syntax of R93. -/

namespace Sys2Proof

/-- Why a word is not a command: each reason is the error ILLEGAL (60_exceptions.md R201). -/
inductive DecodeError where
  /-- some bit of 31:16 is set (30_encoding.md R87) -/
  | reservedBits
  /-- the OPC value is not in the table of R84 (R86) -/
  | reservedOpcode
  /-- a Z-format command with N ≠ 0 (R88) -/
  | countNotZero
  /-- an N-format command with N > 64 (R88) -/
  | countTooLarge
deriving DecidableEq, Repr

/-- OPC, bits 7:0 (R80). -/
def opcField (v : Word) : Byte := v.extractLsb' 0 8

/-- N, bits 15:8 (R80, R83). -/
def countField (v : Word) : Byte := v.extractLsb' 8 8

/-- RSV, bits 31:16 (R80). -/
def rsvField (v : Word) : BitVec 16 := v.extractLsb' 16 16

/-- The opcode map of R84: the row with opcode `opc`, its N-format commands carrying the count `n`. -/
def tableRow (opc n : Byte) : Option Instr :=
  match opc.toNat with
  | 0x01 => some .shaInit
  | 0x02 => some (.shaUpdate n)
  | 0x03 => some .shaFinal
  | 0x04 => some .shaCompress
  | 0x05 => some .shaSeth
  | 0x11 => some .hmacInit
  | 0x12 => some (.hmacKey n)
  | 0x13 => some .hmacStart
  | 0x14 => some (.hmacMsg n)
  | 0x15 => some .hmacFinal
  | 0x21 => some .totpGen
  | 0x22 => some .totpTrunc
  | _ => none

/-- The two formats (R81, R82): true for an N-format command. -/
def Instr.isNFormat : Instr → Bool
  | .shaInit => false
  | .shaUpdate _ => true
  | .shaFinal => false
  | .shaCompress => false
  | .shaSeth => false
  | .hmacInit => false
  | .hmacKey _ => true
  | .hmacStart => false
  | .hmacMsg _ => true
  | .hmacFinal => false
  | .totpGen => false
  | .totpTrunc => false

/-- The encoding checks of R85, in its order: reserved bits, opcode, count of a Z-format command, count of an N-format
command. -/
def decode (v : Word) : Except DecodeError Instr :=
  if rsvField v ≠ 0 then .error .reservedBits
  else
    match tableRow (opcField v) (countField v) with
    | none => .error .reservedOpcode
    | some i =>
      if i.isNFormat then
        if maxCount < (countField v).toNat then .error .countTooLarge else .ok i
      else
        if countField v ≠ 0 then .error .countNotZero else .ok i

/-- The opcode of a command (R84). -/
def Instr.opcode : Instr → Byte
  | .shaInit => 0x01
  | .shaUpdate _ => 0x02
  | .shaFinal => 0x03
  | .shaCompress => 0x04
  | .shaSeth => 0x05
  | .hmacInit => 0x11
  | .hmacKey _ => 0x12
  | .hmacStart => 0x13
  | .hmacMsg _ => 0x14
  | .hmacFinal => 0x15
  | .totpGen => 0x21
  | .totpTrunc => 0x22

/-- The N field of a command: its count, 0 for the Z-format (R80). -/
def Instr.count : Instr → Byte
  | .shaInit => 0
  | .shaUpdate n => n
  | .shaFinal => 0
  | .shaCompress => 0
  | .shaSeth => 0
  | .hmacInit => 0
  | .hmacKey n => n
  | .hmacStart => 0
  | .hmacMsg n => n
  | .hmacFinal => 0
  | .totpGen => 0
  | .totpTrunc => 0

/-- The command word `opc | (N << 8)` (R84, R93). -/
def encode (i : Instr) : Word := (i.opcode).setWidth 32 ||| ((i.count).setWidth 32 <<< 8)

/-- The mnemonic of R84. -/
def Instr.mnemonic : Instr → String
  | .shaInit => "SHA_INIT"
  | .shaUpdate _ => "SHA_UPDATE"
  | .shaFinal => "SHA_FINAL"
  | .shaCompress => "SHA_COMPRESS"
  | .shaSeth => "SHA_SETH"
  | .hmacInit => "HMAC_INIT"
  | .hmacKey _ => "HMAC_KEY"
  | .hmacStart => "HMAC_START"
  | .hmacMsg _ => "HMAC_MSG"
  | .hmacFinal => "HMAC_FINAL"
  | .totpGen => "TOTP_GEN"
  | .totpTrunc => "TOTP_TRUNC"

/-- The command syntax of R93: a mnemonic, then for an N-format command the byte count. -/
def parse (mnemonic : String) (count : Option Nat) : Option Instr :=
  match count with
  | none =>
    match mnemonic with
    | "SHA_INIT" => some .shaInit
    | "SHA_FINAL" => some .shaFinal
    | "SHA_COMPRESS" => some .shaCompress
    | "SHA_SETH" => some .shaSeth
    | "HMAC_INIT" => some .hmacInit
    | "HMAC_START" => some .hmacStart
    | "HMAC_FINAL" => some .hmacFinal
    | "TOTP_GEN" => some .totpGen
    | "TOTP_TRUNC" => some .totpTrunc
    | _ => none
  | some n =>
    if n ≤ maxCount then
      match mnemonic with
      | "SHA_UPDATE" => some (.shaUpdate (BitVec.ofNat 8 n))
      | "HMAC_KEY" => some (.hmacKey (BitVec.ofNat 8 n))
      | "HMAC_MSG" => some (.hmacMsg (BitVec.ofNat 8 n))
      | _ => none
    else none

/-- R93: a command in that syntax assembles to its word. -/
def assemble (mnemonic : String) (count : Option Nat) : Option Word := (parse mnemonic count).map encode

/-- The instruction the decoder reads from an opcode-table row's word: the low `nbits` bits of `w`, the bits above
them zero (a command is one 32-bit word, R80, so bit 0 of the row is bit 0 of the word). -/
def decodeTableWord (nbits w : Nat) : Option Instr :=
  if nbits ≤ 32 then
    match decode (BitVec.ofNat 32 (w % 2 ^ nbits)) with
    | .ok i => some i
    | .error _ => none
  else none

end Sys2Proof
end

