-- ==== Sys2Proof/Config.lean ====
section
/-! DEFINITION. What an implementation fixes (00_scope.md R7) and the free values of the spec (`draw()`, 20_memory.md R69; 93_implementation_defined.md U7). The opaque constants have no body: no proof can see a value of one. -/

namespace Sys2Proof

/-- The three widths of one `draw()` (20_memory.md R69): a result register (32 bits), STATUS.PHASE (2 bits) and
STATUS.BUFCNT (6 bits). -/
structure Draw where
  word   : Word
  phase  : BitVec 2
  bufcnt : BitVec 6
deriving DecidableEq, Repr, Inhabited

/-- ROUND_STYLE (R7, 40_sha1.md R119): an iterative loop of `u` rounds per clock, or an 80-stage pipeline. -/
inductive RoundStyle where
  | iterative (u : Nat)
  | pipeline80
deriving DecidableEq, Repr

/-- R7: `u` divides 80. -/
def RoundStyle.ok : RoundStyle → Bool
  | .iterative u => 0 < u && 80 % u == 0
  | .pipeline80 => true

namespace Config

/-- LMAX, the longest message (and key) of one context in bytes (R7, 40_sha1.md R113). -/
def lmax : Nat := 2 ^ 61 - 1

/-- The value of the register ID, ASCII "SHA1" (10_state.md R44). -/
def idValue : Word := 0x53484131

/-- The size of the register window in bytes; BASE is a multiple of it (20_memory.md R60). -/
def windowSize : Nat := 0x100

/-- The free value of a bus read (20_memory.md R69: "fresh at each read", U7): `draw source n` is that of the n-th read of
the instance whose `drawSource` is `source`, so the draws of two instances are not related (log 3, DESIGN CHOICE, safe). -/
opaque draw : Nat → Nat → Draw

/-- TS div 0. TOTP_GEN is never executed with INTERVAL = 0 (42_totp.md R171, R180), so the spec states no quotient:
a free value (log 5, DESIGN CHOICE, safe). -/
opaque quotientByZero : U64 → U64

/-- CODE for a digit count outside 1..9, with which truncation is never executed (42_totp.md R176, R179): a free value
of the truncated value and the digit count (log 6, DESIGN CHOICE, safe). -/
opaque codeOutsideDigits : Word → BitVec 4 → Word

/-- CODE_STR for a digit count outside 1..9 (42_totp.md R177, R179): a free value (log 6, DESIGN CHOICE, safe). -/
opaque codeStrOutsideDigits : Word → BitVec 4 → Vector Word 3

end Config
end Sys2Proof
end

