-- ==== Sys2Proof/Machine/Bytes.lean ====
section
/-! DEFINITION. Operators on words and byte sequences (00_scope.md R9, R10) and the byte order: most significant byte first (20_memory.md R65). -/

namespace Sys2Proof.Machine

/-- `rotl(a, n)`, the 32-bit circular left shift, for 0 < n < 32 (R9). -/
def rotl (a : Word) (n : Nat) : Word := (a <<< n) ||| (a >>> (32 - n))

/-- Byte m of a word, most significant first: `w[31 − 8m : 24 − 8m]` for m = 0..3 (10_state.md R39, R42, R43). -/
def byteOf (w : Word) (m : Nat) : Byte := (w >>> (24 - 8 * m)).setWidth 8

/-- The word of four bytes, most significant first: `W32` of R10. -/
def w32 (b0 b1 b2 b3 : Byte) : Word :=
  (b0.setWidth 32 <<< 24) ||| (b1.setWidth 32 <<< 16) ||| (b2.setWidth 32 <<< 8) ||| b3.setWidth 32

/-- `W32(s, i)`: the word at byte i of a byte sequence (R10). -/
def w32At {n : Nat} (s : Vector Byte n) (i : Nat) (h : i + 3 < n := by omega) : Word :=
  w32 s[i] s[i + 1] s[i + 2] s[i + 3]

/-- `BE64(v)`: the 8 bytes of v, most significant first (R10). -/
def be64 (v : U64) : List Byte :=
  [(v >>> 56).setWidth 8, (v >>> 48).setWidth 8, (v >>> 40).setWidth 8, (v >>> 32).setWidth 8,
   (v >>> 24).setWidth 8, (v >>> 16).setWidth 8, (v >>> 8).setWidth 8, v.setWidth 8]

/-- `s XOR c×64`: every byte of a 64-byte block exclusive-or'ed with c (R10, 41_hmac.md R142). -/
def xorAll (s : Vector Byte 64) (c : Byte) : Vector Byte 64 := Vector.ofFn fun i : Fin 64 => s[i] ^^^ c

/-- `0^64` (R10). -/
def zeros64 : Vector Byte 64 := Vector.replicate 64 0

/-- The initial chaining value IV (40_sha1.md R101). -/
def sha1IV : Vector Word 5 := #v[0x67452301, 0xEFCDAB89, 0x98BADCFE, 0x10325476, 0xC3D2E1F0]

end Sys2Proof.Machine
end

