-- ==== Sys2Proof/Machine/State.lean ====
section
/-! DEFINITION. The state of one instance (10_state.md R20 to R56), the agents' side of it (20_memory.md R67), the reasons a step stops, and the state after reset (R54). -/

namespace Sys2Proof.Machine

/-- What the single context is doing (10_state.md R51). -/
inductive Phase where
  /-- no computation open -/
  | idle
  /-- a plain SHA-1 computation is open -/
  | sha
  /-- an HMAC computation is receiving its key -/
  | hkey
  /-- an HMAC computation is hashing `ipad || message` -/
  | hmsg
deriving DecidableEq, Repr

/-- The codes of STATUS.ERR (60_exceptions.md R200); codes 7..15 are never produced. -/
inductive ErrCode where
  /-- 0 NONE -/
  | noError
  /-- 1 ILLEGAL -/
  | illegal
  /-- 2 SEQUENCE -/
  | sequence
  /-- 3 DIGITS -/
  | digits
  /-- 4 INTERVAL -/
  | interval
  /-- 5 BUSY -/
  | busy
  /-- 6 LENGTH -/
  | length
deriving DecidableEq, Repr

/-- The streaming hash: H, BUF, BUFCNT and LEN (40_sha1.md R100). -/
structure HashCtx where
  /-- the chaining state H0..H4 (10_state.md R45) -/
  h      : Vector Word 5
  /-- the block buffer BUF (R46) -/
  buf    : Vector Byte 64
  /-- BUFCNT, the number of bytes held in BUF, 0..63 (R47) -/
  bufcnt : Fin 64
  /-- LEN, the message bytes absorbed since `shaInit` (R48) -/
  len    : U64
deriving DecidableEq, Repr

/-- The one context of the block (00_scope.md glossary, "context"): the streaming hash, the key state and the phase. -/
structure Context where
  hash   : HashCtx
  /-- KEYBUF, the HMAC key buffer (10_state.md R49) -/
  keybuf : Vector Byte 64
  /-- KEYLEN, the key bytes received since HMAC_INIT (R50) -/
  keylen : U64
  /-- PHASE (R51) -/
  phase  : Phase
deriving DecidableEq, Repr

/-- The state record of one instance (10_state.md R56). -/
structure Block where
  /-- CTRL.IRQ_EN (R27) -/
  irqEn    : Bool
  /-- STATUS.DONE (R30) -/
  done     : Bool
  /-- STATUS.ERR (R32) -/
  err      : ErrCode
  /-- CFG.DIGITS (R36) -/
  digits   : BitVec 4
  /-- INTERVAL (R37) -/
  interval : Word
  /-- TS = TS_HI:TS_LO (R38) -/
  ts       : U64
  /-- DIN0..DIN15 (R39) -/
  din      : Vector Word 16
  /-- COUNTER = COUNTER_HI:COUNTER_LO (R40) -/
  counter  : U64
  /-- TRUNC (R41) -/
  trunc    : Word
  /-- CODE (R42) -/
  code     : Word
  /-- CODE_STR0..CODE_STR2 (R42) -/
  codeStr  : Vector Word 3
  /-- DIGEST0..DIGEST4 (R43) -/
  digest   : Vector Word 5
  /-- H, BUF, BUFCNT, LEN, KEYBUF, KEYLEN and PHASE (R45 to R51) -/
  ctx      : Context
  /-- PENDING, the command accepted and not yet completed (R52) -/
  pending  : Option Word
deriving DecidableEq, Repr

/-- The registers of the window (10_state.md R22). -/
inductive Reg where
  | ctrl | status | cmd | cfg | interval | tsLo | tsHi
  | counterLo | counterHi | trunc | code
  | codeStr (j : Fin 3)
  | mlenLo | mlenHi
  | din (j : Fin 16)
  | digest (k : Fin 5)
  | hstate (k : Fin 5)
  | id
  /-- a reserved offset (R23) -/
  | reserved
deriving DecidableEq, Repr

/-- One host access (20_memory.md R61, R67) at a byte offset of the 256-byte window, `size` bits wide. -/
inductive Access where
  | read (off : BitVec 8) (size : Nat)
  | write (off : BitVec 8) (size : Nat) (v : Word)
deriving DecidableEq, Repr

/-- What moves next (20_memory.md R67; 70_reset_and_hazards.md R230): the host with one access, the engine, or the
platform's hardware reset. -/
inductive Input where
  | host (a : Access)
  | engine
  | hardReset
deriving DecidableEq, Repr

/-- The machine: the block, and the model's own fields for its agents (log 1, 2 and 3). -/
structure State where
  /-- the instance (10_state.md R56) -/
  block    : Block
  /-- the steps to come, the next one first (20_memory.md R67, R68); when it is empty the engine finishes a pending
  command and the block then waits (70_reset_and_hazards.md R233, R244) -/
  inputs   : List Input
  /-- the word the last bus read returned to the host -/
  lastRead : Option Word
  /-- which sequence of free values this instance takes its draws from (20_memory.md R69, R75): instances with different
  sources share no draw (log 3 and 14) -/
  drawSource : Nat
  /-- the number of bus reads served: the index of the next `draw()` (20_memory.md R69) -/
  draws    : Nat
deriving DecidableEq, Repr

/-- The reasons a step ends in a fault. -/
inductive Fault where
  /-- A host access that is not 32 bits wide or not 4-byte aligned (20_memory.md R62, 60_exceptions.md R215), raised by
  the bus step; it carries the block, which the access does not change. Safe: the spec treats it as a fault. -/
  | busError (block : Block)
  /-- The engine found in PENDING a word that is no command; raised by the engine step. Safe: acceptance only stores
  commands (30_encoding.md R85), so no run reaches such a state (log 4). -/
  | strayPending (word : Word)
deriving DecidableEq, Repr

/-- The reasons a step is refused. -/
inductive Refusal where
  /-- An instruction with no meaning in the model; raised by no arm of this model. Safe. -/
  | notModelled (mnemonic : String)
deriving DecidableEq, Repr

/-- The context after `shaInit` (40_sha1.md R107), as at reset (10_state.md R54). -/
def HashCtx.reset : HashCtx :=
  { h := sha1IV, buf := zeros64, bufcnt := 0, len := 0 }

/-- The context after reset (10_state.md R54). -/
def Context.reset : Context :=
  { hash := HashCtx.reset, keybuf := zeros64, keylen := 0, phase := .idle }

/-- Every piece of the block's state after a hardware or a soft reset (10_state.md R54). -/
def Block.reset : Block :=
  { irqEn := false
    done := false
    err := .noError
    digits := 6
    interval := 30
    ts := 0
    din := Vector.replicate 16 0
    counter := 0
    trunc := 0
    code := 0
    codeStr := Vector.replicate 3 0
    digest := Vector.replicate 5 0
    ctx := Context.reset
    pending := none }

/-- The machine right after reset: the block as R54 says, no access waiting, nothing read yet. -/
def State.reset : State :=
  { block := Block.reset, inputs := [], lastRead := none, drawSource := 0, draws := 0 }

end Sys2Proof.Machine
end

