-- ==== Sys2Proof/Machine/Operands.lean ====
section
/-! DEFINITION. The operand forms: the register map (10_state.md R22), the byte views of DIN, DIGEST and CODE_STR (R39, R42, R43), the operand bytes DINB[0..N−1] (30_encoding.md R81, R83) and the halves of the 64-bit registers (20_memory.md R65). -/

namespace Sys2Proof.Machine

/-- The register at an aligned offset of the window (10_state.md R22); every other offset is reserved (R23). -/
def regAt (off : BitVec 8) : Reg :=
  let a := off.toNat
  if a = 0x00 then .ctrl
  else if a = 0x04 then .status
  else if a = 0x08 then .cmd
  else if a = 0x0C then .cfg
  else if a = 0x10 then .interval
  else if a = 0x14 then .tsLo
  else if a = 0x18 then .tsHi
  else if a = 0x1C then .counterLo
  else if a = 0x20 then .counterHi
  else if a = 0x24 then .trunc
  else if a = 0x28 then .code
  else if 0x2C ≤ a ∧ a < 0x38 then .codeStr (Fin.ofNat 3 ((a - 0x2C) / 4))
  else if a = 0x38 then .mlenLo
  else if a = 0x3C then .mlenHi
  else if 0x40 ≤ a ∧ a < 0x80 then .din (Fin.ofNat 16 ((a - 0x40) / 4))
  else if 0x80 ≤ a ∧ a < 0x94 then .digest (Fin.ofNat 5 ((a - 0x80) / 4))
  else if 0xA0 ≤ a ∧ a < 0xB4 then .hstate (Fin.ofNat 5 ((a - 0xA0) / 4))
  else if a = 0xC0 then .id
  else .reserved

/-- `offset(REG)` (10_state.md R22, 30_encoding.md R94); of the reserved offsets the first. -/
def regOffset : Reg → BitVec 8
  | .ctrl => 0x00
  | .status => 0x04
  | .cmd => 0x08
  | .cfg => 0x0C
  | .interval => 0x10
  | .tsLo => 0x14
  | .tsHi => 0x18
  | .counterLo => 0x1C
  | .counterHi => 0x20
  | .trunc => 0x24
  | .code => 0x28
  | .codeStr j => 0x2C + BitVec.ofNat 8 (4 * j.val)
  | .mlenLo => 0x38
  | .mlenHi => 0x3C
  | .din j => 0x40 + BitVec.ofNat 8 (4 * j.val)
  | .digest k => 0x80 + BitVec.ofNat 8 (4 * k.val)
  | .hstate k => 0xA0 + BitVec.ofNat 8 (4 * k.val)
  | .id => 0xC0
  | .reserved => 0x94

/-- The accesses the block serves: 32 bits wide at a 4-byte-aligned offset (20_memory.md R61). -/
def served (off : BitVec 8) (size : Nat) : Bool := size == 32 && off.toNat % 4 == 0

/-- The registers whose reads are draws while BUSY = 1 (20_memory.md R69); STATUS is one only in part. -/
def Reg.isResult : Reg → Bool
  | .ctrl => false
  | .status => false
  | .cmd => false
  | .cfg => false
  | .interval => false
  | .tsLo => false
  | .tsHi => false
  | .counterLo => true
  | .counterHi => true
  | .trunc => true
  | .code => true
  | .codeStr _ => true
  | .mlenLo => true
  | .mlenHi => true
  | .din _ => false
  | .digest _ => true
  | .hstate _ => true
  | .id => false
  | .reserved => false

/-- The registers a write to which is ignored and raises BUSY while BUSY = 1 (20_memory.md R70). -/
def Reg.isFrozen : Reg → Bool
  | .ctrl => false
  | .status => false
  | .cmd => true
  | .cfg => true
  | .interval => true
  | .tsLo => true
  | .tsHi => true
  | .counterLo => false
  | .counterHi => false
  | .trunc => false
  | .code => false
  | .codeStr _ => false
  | .mlenLo => false
  | .mlenHi => false
  | .din _ => true
  | .digest _ => false
  | .hstate _ => false
  | .id => false
  | .reserved => false

/-- Bits 31:0 of a 64-bit value, its `_LO` register (20_memory.md R65). -/
def lo32 (v : U64) : Word := v.setWidth 32

/-- Bits 63:32 of a 64-bit value, its `_HI` register (20_memory.md R65). -/
def hi32 (v : U64) : Word := (v >>> 32).setWidth 32

/-- `(HI << 32) | LO` (10_state.md R38). -/
def join64 (hi lo : Word) : U64 := (hi.setWidth 64 <<< 32) ||| lo.setWidth 64

/-- DINB[0..63], the byte view of DIN (10_state.md R39): DINB[4j + m] is byte m of DIN_j. -/
def dinBytes (din : Vector Word 16) : Vector Byte 64 :=
  Vector.ofFn fun i : Fin 64 => byteOf (din[i.val / 4]'(by omega)) (i.val % 4)

/-- The operand bytes DINB[0..N−1] of an N-format command (30_encoding.md R81, 20_memory.md R66). -/
def operandBytes (b : Block) (n : Byte) : List Byte := (dinBytes b.din).toList.take n.toNat

/-- The byte view D[0..19] of the five digest words (10_state.md R43), which is also `Digest(H)` (40_sha1.md R111). -/
def digestBytes (d : Vector Word 5) : Vector Byte 20 :=
  Vector.ofFn fun i : Fin 20 => byteOf (d[i.val / 4]'(by omega)) (i.val % 4)

/-- The five words of a 20-byte digest, `DIGEST_k <- W32(d, 4k)` (40_sha1.md R116). -/
def digestWords (d : Vector Byte 20) : Vector Word 5 :=
  #v[w32At d 0, w32At d 4, w32At d 8, w32At d 12, w32At d 16]

/-- The byte view STR[0..11] of CODE_STR0..2 (10_state.md R42). -/
def strBytes (s : Vector Word 3) : Vector Byte 12 :=
  Vector.ofFn fun i : Fin 12 => byteOf (s[i.val / 4]'(by omega)) (i.val % 4)

/-- `CODE_STR_j <- W32(STR, 4j)` (42_totp.md R178). -/
def strWords (s : Vector Byte 12) : Vector Word 3 := #v[w32At s 0, w32At s 4, w32At s 8]

end Sys2Proof.Machine
end

