-- ==== Sys2Proof/Machine/Flags.lean ====
section
/-! DEFINITION. The flags: BUSY, DONE, IRQ, ERR, PHASE and BUFCNT as STATUS reads them (10_state.md R28 to R34, R55). -/

namespace Sys2Proof.Machine

/-- STATUS.BUSY: a command is accepted and not completed (10_state.md R29). -/
def Block.busy (b : Block) : Bool := b.pending.isSome

/-- The interrupt line and STATUS.IRQ: `CTRL.IRQ_EN & STATUS.DONE` (10_state.md R33, 60_exceptions.md R212). -/
def Block.irq (b : Block) : Bool := b.irqEn && b.done

/-- The encoding of STATUS.PHASE (10_state.md R31). -/
def Phase.code : Phase → BitVec 2
  | .idle => 0
  | .sha => 1
  | .hkey => 2
  | .hmsg => 3

/-- The codes of STATUS.ERR (60_exceptions.md R200). -/
def ErrCode.code : ErrCode → BitVec 4
  | .noError => 0
  | .illegal => 1
  | .sequence => 2
  | .digits => 3
  | .interval => 4
  | .busy => 5
  | .length => 6

/-- One flag as a word. -/
def flagBit (f : Bool) : Word := if f then 1 else 0

/-- The STATUS layout (10_state.md R28): BUSY 0, DONE 1, IRQ 2, ERR 7:4, PHASE 9:8, BUFCNT 21:16, the rest 0. -/
def packStatus (busy done irq : Bool) (err : BitVec 4) (phase : BitVec 2) (bufcnt : BitVec 6) : Word :=
  flagBit busy ||| (flagBit done <<< 1) ||| (flagBit irq <<< 2) ||| (err.setWidth 32 <<< 4)
    ||| (phase.setWidth 32 <<< 8) ||| (bufcnt.setWidth 32 <<< 16)

/-- What a read of STATUS returns (10_state.md R28): while BUSY = 1 its PHASE and BUFCNT fields are draws, the others
current (20_memory.md R69). -/
def statusWord (b : Block) (d : Draw) : Word :=
  if b.busy then packStatus b.busy b.done b.irq b.err.code d.phase d.bufcnt
  else packStatus b.busy b.done b.irq b.err.code b.ctx.phase.code (BitVec.ofNat 6 b.ctx.hash.bufcnt.val)

/-- What a read of CTRL returns: IRQ_EN in bit 2, SRST and ERRCLR as 0 (10_state.md R24). -/
def ctrlWord (b : Block) : Word := flagBit b.irqEn <<< 2

end Sys2Proof.Machine
end

