-- ==== Sys2Proof/Machine/Ops.lean ====
section
/-! DEFINITION. The shared operations: the SHA-1 primitives (40_sha1.md R102 to R111), the HMAC primitives (41_hmac.md R144 to R146), truncation (42_totp.md R174 to R178), acceptance, rejection and completion of a command (30_encoding.md R85, 60_exceptions.md R206 to R211, 20_memory.md R67). -/

namespace Sys2Proof.Machine

/-! ### The compression function -/

/-- The round function f_t (40_sha1.md R102). -/
def roundF (t : Nat) (b c d : Word) : Word :=
  if t < 20 then (b &&& c) ||| (~~~b &&& d)
  else if t < 40 then b ^^^ c ^^^ d
  else if t < 60 then (b &&& c) ||| (b &&& d) ||| (c &&& d)
  else b ^^^ c ^^^ d

/-- The round constant K_t (40_sha1.md R102). -/
def roundK (t : Nat) : Word :=
  if t < 20 then 0x5A827999
  else if t < 40 then 0x6ED9EBA1
  else if t < 60 then 0x8F1BBCDC
  else 0xCA62C1D6

/-- The five working variables a, b, c, d, e (40_sha1.md R103, 10_state.md R53). -/
structure Vars where
  a : Word
  b : Word
  c : Word
  d : Word
  e : Word
deriving DecidableEq, Repr

/-- The working variables at the start of a compression (40_sha1.md R103). -/
def Vars.start (h : Vector Word 5) : Vars := { a := h[0], b := h[1], c := h[2], d := h[3], e := h[4] }

/-- One round (40_sha1.md R105). -/
def round (t : Nat) (w : Word) (v : Vars) : Vars :=
  { a := rotl v.a 5 + roundF t v.b v.c v.d + v.e + roundK t + w
    b := v.a
    c := rotl v.b 30
    d := v.c
    e := v.d }

/-- The rounds of the schedule words `ws`, the first of them being round `t` (40_sha1.md R103). -/
def rounds : List Word → Nat → Vars → Vars
  | [], _, v => v
  | w :: ws, t, v => rounds ws (t + 1) (round t w v)

/-- The next schedule word, from the words so far, newest first:
`rotl(W[t-3] ^ W[t-8] ^ W[t-14] ^ W[t-16], 1)` (40_sha1.md R104). -/
def nextScheduleWord (newest : List Word) : Word :=
  rotl (newest.getD 2 0 ^^^ newest.getD 7 0 ^^^ newest.getD 13 0 ^^^ newest.getD 15 0) 1

/-- `k` more schedule words, newest first (40_sha1.md R104). -/
def extendSchedule : Nat → List Word → List Word
  | 0, newest => newest
  | k + 1, newest => extendSchedule k (nextScheduleWord newest :: newest)

/-- The block as 16 big-endian words (40_sha1.md R104). -/
def blockWords (m : Vector Byte 64) : Vector Word 16 :=
  Vector.ofFn fun t : Fin 16 => w32At m (4 * t.val)

/-- The message schedule W[0..79] (40_sha1.md R104). -/
def schedule (m : Vector Byte 64) : List Word := (extendSchedule 64 (blockWords m).toList.reverse).reverse

/-- The final addition, word by word modulo 2^32 (40_sha1.md R106). -/
def addChain (h : Vector Word 5) (v : Vars) : Vector Word 5 :=
  #v[h[0] + v.a, h[1] + v.b, h[2] + v.c, h[3] + v.d, h[4] + v.e]

/-- `compress(H, M)` (40_sha1.md R103). Irreducible, like the other long computations below, so that no proof unfolds
80 rounds unasked; Lean's kernel evaluates it all the same. -/
@[irreducible] def compress (h : Vector Word 5) (m : Vector Byte 64) : Vector Word 5 :=
  addChain h (rounds (schedule m) 0 (Vars.start h))

/-! ### The streaming hash -/

/-- `shaInit()` (40_sha1.md R107). -/
def shaInit : HashCtx := { h := sha1IV, buf := zeros64, bufcnt := 0, len := 0 }

/-- `padByte(x)` (40_sha1.md R110): store the byte, and compress when the buffer fills. -/
def padByte (x : Byte) (c : HashCtx) : HashCtx :=
  let buf := c.buf.set c.bufcnt.val x c.bufcnt.isLt
  if full : c.bufcnt.val + 1 < 64 then { c with buf := buf, bufcnt := ⟨c.bufcnt.val + 1, full⟩ }
  else { c with h := compress c.h buf, buf := buf, bufcnt := 0 }

/-- `absorbByte(x)` (40_sha1.md R108): as `padByte`, and LEN counts the byte. -/
def absorbByte (x : Byte) (c : HashCtx) : HashCtx := { padByte x c with len := c.len + 1 }

/-- `absorb(s)`: the bytes of s in order (40_sha1.md R109). -/
@[irreducible] def absorb (s : List Byte) (c : HashCtx) : HashCtx := s.foldl (fun c x => absorbByte x c) c

/-- `k` padding bytes 0x00 (40_sha1.md R110). -/
@[irreducible] def padZeros : Nat → HashCtx → HashCtx
  | 0, c => c
  | k + 1, c => padZeros k (padByte 0x00 c)

/-- `shaFinal()` (40_sha1.md R110): the padding and the last one or two compressions. Each `while` loop of the rule runs
the number of times that takes BUFCNT to the value it waits for. The 20-byte digest is `digestBytes` of the final H. -/
@[irreducible] def shaFinal (c : HashCtx) : HashCtx :=
  let bitlen : U64 := c.len * 8
  let c1 := padByte 0x80 c
  let c2 := if 56 < c1.bufcnt.val then padZeros (64 - c1.bufcnt.val) c1 else c1
  let c3 := padZeros (56 - c2.bufcnt.val) c2
  (be64 bitlen).foldl (fun c x => padByte x c) c3

/-! ### The HMAC primitives -/

/-- `keyByte(x)` (41_hmac.md R144): the first 64 key bytes are held in KEYBUF; the 65th moves them into the hash. -/
def keyByte (x : Byte) (c : Context) : Context :=
  if room : c.keylen.toNat < 64 then
    { c with keybuf := c.keybuf.set c.keylen.toNat x room, keylen := c.keylen + 1 }
  else
    let hash := if c.keylen.toNat = 64 then absorb c.keybuf.toList c.hash else c.hash
    { c with hash := absorbByte x hash, keylen := c.keylen + 1 }

/-- `keyByte` over a byte sequence, in order (41_hmac.md R149). -/
@[irreducible] def keyBytes (s : List Byte) (c : Context) : Context := s.foldl (fun c x => keyByte x c) c

/-- A 20-byte digest padded with 44 zero bytes (41_hmac.md R141, R145). -/
def padKey (d : Vector Byte 20) : Vector Byte 64 :=
  Vector.ofFn fun i : Fin 64 => if h : i.val < 20 then d[i.val] else 0

/-- K0 (41_hmac.md R141, R145). -/
def deriveK0 (c : Context) : Vector Byte 64 :=
  if 64 < c.keylen.toNat then padKey (digestBytes (shaFinal c.hash).h) else c.keybuf

/-- `hmacStart()` (41_hmac.md R145): K0 is kept in KEYBUF and the inner pad is absorbed. -/
def hmacStart (c : Context) : Context :=
  let k0 := deriveK0 c
  { c with keybuf := k0, hash := absorb (xorAll k0 0x36).toList shaInit }

/-- `hmacFinal()` (41_hmac.md R146): the outer hash, and the key material cleared. The result `out` is `digestBytes` of
the final H. -/
def hmacFinal (c : Context) : Context :=
  let inner := digestBytes (shaFinal c.hash).h
  let outer := absorb inner.toList (absorb (xorAll c.keybuf 0x5C).toList shaInit)
  { c with hash := shaFinal outer, keybuf := zeros64, keylen := 0 }

/-! ### Truncation and formatting -/

/-- The counter (42_totp.md R171): `TS div INTERVAL`, with INTERVAL ≠ 0 guaranteed by R180; the quotient by 0 is free
(log 5). -/
def timeStep (ts : U64) (interval : Word) : U64 :=
  if interval = 0 then Config.quotientByZero ts else ts / interval.setWidth 64

/-- The offset, `digest[19] & 0x0F` (42_totp.md R174): 0..15. -/
def truncOffset (d : Vector Byte 20) : Fin 16 := ⟨(d[19] &&& 0x0F).toNat, by
  have h : (d[19] &&& 0x0F).toNat ≤ 15 := by rw [BitVec.toNat_and]; exact Nat.and_le_right
  omega⟩

/-- The truncated 31-bit value (42_totp.md R175): only the first byte is masked. -/
def truncValue (d : Vector Byte 20) : Word :=
  let off := (truncOffset d).val
  have bound : off < 16 := (truncOffset d).isLt
  ((d[off] &&& 0x7F).setWidth 32 <<< 24) ||| (d[off + 1].setWidth 32 <<< 16)
    ||| (d[off + 2].setWidth 32 <<< 8) ||| d[off + 3].setWidth 32

/-- The legal digit counts (42_totp.md R179): 1..9. -/
def digitsOk (digits : BitVec 4) : Bool := 1 ≤ digits.toNat && digits.toNat ≤ 9

/-- `value mod 10^digits` (42_totp.md R176). Outside 1..9 the value is free (log 6). -/
def codeOf (value : Word) (digits : BitVec 4) : Word :=
  if digitsOk digits then BitVec.ofNat 32 (value.toNat % 10 ^ digits.toNat)
  else Config.codeOutsideDigits value digits

/-- Character i of the code string (42_totp.md R177, R178): an ASCII digit below `digits`, then 0x00. -/
def codeChar (code : Word) (digits : BitVec 4) (i : Nat) : Byte :=
  if i < digits.toNat then BitVec.ofNat 8 (0x30 + code.toNat / 10 ^ (digits.toNat - 1 - i) % 10) else 0

/-- The words CODE_STR0..2 of the code string (42_totp.md R178). Outside 1..9 they are free (log 6). -/
def codeStrOf (value : Word) (digits : BitVec 4) : Vector Word 3 :=
  if digitsOk digits then
    strWords (Vector.ofFn fun i : Fin 12 => codeChar (codeOf value digits) digits i.val)
  else Config.codeStrOutsideDigits value digits

/-- `totpTrunc(D, digits)` (42_totp.md R178): the three result registers. -/
def truncate (d : Vector Byte 20) (digits : BitVec 4) (b : Block) : Block :=
  { b with
    trunc := truncValue d
    code := codeOf (truncValue d) digits
    codeStr := codeStrOf (truncValue d) digits }

/-! ### Acceptance, errors and completion -/

/-- `raise Error(code)` (60_exceptions.md R206): the command is rejected; only ERR and DONE change. This is the block's
one way of taking an error on a command word. -/
def raiseError (code : ErrCode) (b : Block) : Block :=
  { b with err := if b.err = .noError then code else b.err, done := true }

/-- The BUSY error of a write to a frozen register (60_exceptions.md R207): the write is ignored and only ERR changes. -/
def busyError (b : Block) : Block := { b with err := if b.err = .noError then .busy else b.err }

/-- The return from an error, CTRL.ERRCLR (60_exceptions.md R211, 10_state.md R26). -/
def clearError (b : Block) : Block := { b with err := .noError }

/-- The acceptance of a command word (30_encoding.md R85): PENDING holds it, DONE is cleared. -/
def accept (v : Word) (b : Block) : Block := { b with pending := some v, done := false }

/-- The completion of a command (20_memory.md R67): PENDING is none again, DONE is set. -/
def complete (b : Block) : Block := { b with pending := none, done := true }

/-- The engine step's result: the effect `b` of a command on the block, and its completion (20_memory.md R67). -/
def finish (b : Block) (s : State) : Host.Outcome State Fault Refusal := .next { s with block := complete b }

/-- The phases in which a command is legal (30_encoding.md R92). -/
def legal (i : Instr) (p : Phase) : Bool :=
  match i with
  | .shaInit => true
  | .shaUpdate _ => p == .sha
  | .shaFinal => p == .sha
  | .shaCompress => p == .sha
  | .shaSeth => p == .sha
  | .hmacInit => true
  | .hmacKey _ => p == .hkey
  | .hmacStart => p == .hkey
  | .hmacMsg _ => p == .hmsg
  | .hmacFinal => p == .hmsg
  | .totpGen => p == .hkey
  | .totpTrunc => true

/-- The commands that need a legal digit count (30_encoding.md R85, 42_totp.md R179). -/
def usesDigits : Instr → Bool
  | .shaInit => false
  | .shaUpdate _ => false
  | .shaFinal => false
  | .shaCompress => false
  | .shaSeth => false
  | .hmacInit => false
  | .hmacKey _ => false
  | .hmacStart => false
  | .hmacMsg _ => false
  | .hmacFinal => false
  | .totpGen => true
  | .totpTrunc => true

/-- The command that divides by INTERVAL (30_encoding.md R85, 42_totp.md R180). -/
def usesInterval : Instr → Bool
  | .shaInit => false
  | .shaUpdate _ => false
  | .shaFinal => false
  | .shaCompress => false
  | .shaSeth => false
  | .hmacInit => false
  | .hmacKey _ => false
  | .hmacStart => false
  | .hmacMsg _ => false
  | .hmacFinal => false
  | .totpGen => true
  | .totpTrunc => false

/-- The count a command would reach, LEN + N or KEYLEN + N (30_encoding.md R85, 60_exceptions.md R205); 0 for the
commands that have no length check. -/
def lengthAfter (i : Instr) (b : Block) : Nat :=
  match i with
  | .shaInit => 0
  | .shaUpdate n => b.ctx.hash.len.toNat + n.toNat
  | .shaFinal => 0
  | .shaCompress => 0
  | .shaSeth => 0
  | .hmacInit => 0
  | .hmacKey n => b.ctx.keylen.toNat + n.toNat
  | .hmacStart => 0
  | .hmacMsg n => b.ctx.hash.len.toNat + n.toNat
  | .hmacFinal => 0
  | .totpGen => 0
  | .totpTrunc => 0

/-- The checks of 30_encoding.md R85 on a well-formed command, in its order (60_exceptions.md R209): the error of the
first that fails. -/
def commandError (i : Instr) (b : Block) : Option ErrCode :=
  if !legal i b.ctx.phase then some .sequence
  else if usesDigits i && !digitsOk b.digits then some .digits
  else if usesInterval i && b.interval == 0 then some .interval
  else if Config.lmax < lengthAfter i b then some .length
  else none

/-- `Decode(v)` (30_encoding.md R85), run by a write to CMD while BUSY = 0. -/
def presentCommand (v : Word) (b : Block) : Block :=
  if b.err ≠ .noError then { b with done := true }
  else
    match decode v with
    | .error _ => raiseError .illegal b
    | .ok i =>
      match commandError i b with
      | some code => raiseError code b
      | none => accept v b

end Sys2Proof.Machine
end

