-- ==== Sys2Proof/Machine/Hmac.lean ====
section
/-! DEFINITION. The five HMAC commands (41_hmac.md R148 to R152): the `Exec` of the engine step with its completion. -/

namespace Sys2Proof.Machine

/-- HMAC_INIT (41_hmac.md R148). -/
def execHmacInit (s : State) : Host.Outcome State Fault Refusal :=
  finish { s.block with ctx := { hash := shaInit, keybuf := zeros64, keylen := 0, phase := .hkey } } s

/-- HMAC_KEY N (41_hmac.md R149). -/
def execHmacKey (n : Byte) (s : State) : Host.Outcome State Fault Refusal :=
  finish { s.block with ctx := keyBytes (operandBytes s.block n) s.block.ctx } s

/-- HMAC_START (41_hmac.md R150). -/
def execHmacStart (s : State) : Host.Outcome State Fault Refusal :=
  finish { s.block with ctx := { hmacStart s.block.ctx with phase := .hmsg } } s

/-- HMAC_MSG N (41_hmac.md R151). -/
def execHmacMsg (n : Byte) (s : State) : Host.Outcome State Fault Refusal :=
  finish
    { s.block with ctx := { s.block.ctx with hash := absorb (operandBytes s.block n) s.block.ctx.hash } } s

/-- HMAC_FINAL (41_hmac.md R152). -/
def execHmacFinal (s : State) : Host.Outcome State Fault Refusal :=
  let ctx := hmacFinal s.block.ctx
  finish
    { s.block with
      digest := digestWords (digestBytes ctx.hash.h)
      ctx := { ctx with phase := .idle } } s

end Sys2Proof.Machine
end

