-- ==== Sys2Proof/Machine/Sha1.lean ====
section
/-! DEFINITION. The five SHA-1 commands (40_sha1.md R114 to R118): the `Exec` of the engine step with its completion. -/

namespace Sys2Proof.Machine

/-- SHA_INIT (40_sha1.md R114). -/
def execShaInit (s : State) : Host.Outcome State Fault Refusal :=
  finish { s.block with ctx := { hash := shaInit, keybuf := zeros64, keylen := 0, phase := .sha } } s

/-- SHA_UPDATE N (40_sha1.md R115). -/
def execShaUpdate (n : Byte) (s : State) : Host.Outcome State Fault Refusal :=
  finish
    { s.block with ctx := { s.block.ctx with hash := absorb (operandBytes s.block n) s.block.ctx.hash } } s

/-- SHA_FINAL (40_sha1.md R116). -/
def execShaFinal (s : State) : Host.Outcome State Fault Refusal :=
  let hash := shaFinal s.block.ctx.hash
  finish
    { s.block with
      digest := digestWords (digestBytes hash.h)
      ctx := { s.block.ctx with hash := hash, phase := .idle } } s

/-- SHA_COMPRESS (40_sha1.md R117). -/
def execShaCompress (s : State) : Host.Outcome State Fault Refusal :=
  let hash := s.block.ctx.hash
  finish
    { s.block with
      ctx := { s.block.ctx with hash := { hash with h := compress hash.h (dinBytes s.block.din) } } } s

/-- SHA_SETH (40_sha1.md R118). -/
def execShaSeth (s : State) : Host.Outcome State Fault Refusal :=
  let din := s.block.din
  finish
    { s.block with
      ctx := { s.block.ctx with
        hash := { s.block.ctx.hash with h := #v[din[0], din[1], din[2], din[3], din[4]] } } } s

end Sys2Proof.Machine
end

