-- ==== Sys2Proof/Machine/Totp.lean ====
section
/-! DEFINITION. The two TOTP commands (42_totp.md R181, R182): the `Exec` of the engine step with its completion. -/

namespace Sys2Proof.Machine

/-- TOTP_GEN (42_totp.md R181). -/
def execTotpGen (s : State) : Host.Outcome State Fault Refusal :=
  let counter := timeStep s.block.ts s.block.interval
  let started := hmacStart s.block.ctx
  let ctx := hmacFinal { started with hash := absorb (be64 counter) started.hash }
  let out := digestBytes ctx.hash.h
  finish
    (truncate out s.block.digits
      { s.block with
        counter := counter
        digest := digestWords out
        ctx := { ctx with phase := .idle } }) s

/-- TOTP_TRUNC (42_totp.md R182). -/
def execTotpTrunc (s : State) : Host.Outcome State Fault Refusal :=
  finish (truncate (digestBytes s.block.digest) s.block.digits s.block) s

end Sys2Proof.Machine
end

