-- ==== Sys2Proof/Machine/Dispatch.lean ====
section
/-! DEFINITION. The effect of each command at its engine step (20_memory.md R67): one arm per command of 30_encoding.md R84. -/

namespace Sys2Proof.Machine

/-- `Exec(c, s)` and the completion of the command c (20_memory.md R67). -/
def exec (i : Instr) (s : State) : Host.Outcome State Fault Refusal :=
  match i with
  | .shaInit => Sys2Proof.Machine.execShaInit s
  | .shaUpdate n => Sys2Proof.Machine.execShaUpdate n s
  | .shaFinal => Sys2Proof.Machine.execShaFinal s
  | .shaCompress => Sys2Proof.Machine.execShaCompress s
  | .shaSeth => Sys2Proof.Machine.execShaSeth s
  | .hmacInit => Sys2Proof.Machine.execHmacInit s
  | .hmacKey n => Sys2Proof.Machine.execHmacKey n s
  | .hmacStart => Sys2Proof.Machine.execHmacStart s
  | .hmacMsg n => Sys2Proof.Machine.execHmacMsg n s
  | .hmacFinal => Sys2Proof.Machine.execHmacFinal s
  | .totpGen => Sys2Proof.Machine.execTotpGen s
  | .totpTrunc => Sys2Proof.Machine.execTotpTrunc s

end Sys2Proof.Machine
end

