-- ==== Sys2Proof/Machine/Bus.lean ====
section
/-! DEFINITION. The agents' steps (20_memory.md R60 to R70): a bus read, a bus write, the engine step. -/

namespace Sys2Proof.Machine

/-- The value of a register while BUSY = 0, and of every register that is no result register at any time
(10_state.md R22 to R45). -/
def regValue (r : Reg) (b : Block) (d : Draw) : Word :=
  match r with
  | .ctrl => ctrlWord b
  | .status => statusWord b d
  | .cmd => 0
  | .cfg => b.digits.setWidth 32
  | .interval => b.interval
  | .tsLo => lo32 b.ts
  | .tsHi => hi32 b.ts
  | .counterLo => lo32 b.counter
  | .counterHi => hi32 b.counter
  | .trunc => b.trunc
  | .code => b.code
  | .codeStr j => b.codeStr[j]
  | .mlenLo => lo32 b.ctx.hash.len
  | .mlenHi => hi32 b.ctx.hash.len
  | .din j => b.din[j]
  | .digest k => b.digest[k]
  | .hstate k => b.ctx.hash.h[k]
  | .id => Config.idValue
  | .reserved => 0

/-- `BusRead` of a register (20_memory.md R69): a draw for a result register while BUSY = 1. -/
def readReg (r : Reg) (b : Block) (d : Draw) : Word :=
  if b.busy && r.isResult then d.word else regValue r b d

/-- A write to CTRL (10_state.md R24 to R27): SRST first; with SRST = 0, ERRCLR and IRQ_EN. -/
def writeCtrl (v : Word) (b : Block) : Block :=
  if v.getLsbD 0 then Block.reset
  else
    let cleared := if v.getLsbD 1 then clearError b else b
    { cleared with irqEn := v.getLsbD 2 }

/-- A write to STATUS (10_state.md R28): bit 1 clears DONE. -/
def writeStatus (v : Word) (b : Block) : Block := if v.getLsbD 1 then { b with done := false } else b

/-- A write as when BUSY = 0 (10_state.md R23 to R45). -/
def storeReg (r : Reg) (v : Word) (b : Block) : Block :=
  match r with
  | .ctrl => writeCtrl v b
  | .status => writeStatus v b
  | .cmd => presentCommand v b
  | .cfg => { b with digits := v.setWidth 4 }
  | .interval => { b with interval := v }
  | .tsLo => { b with ts := join64 (hi32 b.ts) v }
  | .tsHi => { b with ts := join64 v (lo32 b.ts) }
  | .counterLo => b
  | .counterHi => b
  | .trunc => b
  | .code => b
  | .codeStr _ => b
  | .mlenLo => b
  | .mlenHi => b
  | .din j => { b with din := b.din.set j.val v j.isLt }
  | .digest _ => b
  | .hstate _ => b
  | .id => b
  | .reserved => b

/-- `BusWrite` to a register (20_memory.md R70): while BUSY = 1 a write to a frozen register is ignored and raises the
BUSY error (60_exceptions.md R207). -/
def writeReg (r : Reg) (v : Word) (b : Block) : Block :=
  if b.busy && r.isFrozen then busyError b else storeReg r v b

/-- The host's step (20_memory.md R61, R62, R64, R67): an access the block serves, or a bus error with the block
unchanged. A read takes the next free value of `draw()`, fresh at each read (R69). DESIGN CHOICE (log 3): the free value
is `Config.draw` of this instance's `drawSource` and its count of reads, so that no two reads of one instance share a
draw, and reads of instances with different sources are not related. -/
def hostStep (a : Access) (s : State) : Host.Outcome State Fault Refusal :=
  match a with
  | .read off size =>
    if served off size then
      .next { s with
        lastRead := some (readReg (regAt off) s.block (Config.draw s.drawSource s.draws))
        draws := s.draws + 1 }
    else .fault (.busError s.block)
  | .write off size v =>
    if served off size then .next { s with block := writeReg (regAt off) v s.block }
    else .fault (.busError s.block)

/-- The engine's step (20_memory.md R67): enabled when PENDING holds a command, which it executes. With PENDING = none
the engine has no step and nothing changes. -/
def engineStep (s : State) : Host.Outcome State Fault Refusal :=
  match s.block.pending with
  | none => .next s
  | some v =>
    match decode v with
    | .ok i => exec i s
    | .error _ => .fault (.strayPending v)

/-- The platform's hardware reset (70_reset_and_hazards.md R230, R232). -/
def hardwareReset (s : State) : State := { s with block := Block.reset }

/-- The step of the agent that moves next (20_memory.md R67). -/
def inputStep (i : Input) (s : State) : Host.Outcome State Fault Refusal :=
  match i with
  | .host a => hostStep a s
  | .engine => engineStep s
  | .hardReset => .next (hardwareReset s)

/-- Where the engine finds its next command: PENDING holds it, and the engine moves next. -/
def loadCommand (v : Word) (s : State) : State :=
  { s with block := { s.block with pending := some v }, inputs := .engine :: s.inputs }

end Sys2Proof.Machine
end

