-- ==== Sys2Proof/Machine/Step.lean ====
section
/-! DEFINITION. One step of the machine (20_memory.md R67) and the place where a test puts the next command. -/

namespace Sys2Proof.Machine

/-- One step: the agent at the head of `inputs` moves. With no input left the engine moves: a pending command completes
(70_reset_and_hazards.md R244), and with none the block waits for a host access (R233). -/
def step (s : State) : Host.Outcome State Fault Refusal :=
  match s.inputs with
  | [] => engineStep s
  | i :: rest => inputStep i { s with inputs := rest }

/-- `s` with the command word `w` (its low `nbits` bits) in PENDING and the engine to move next, so that the very next
step runs it (log 9). -/
def State.withFetchWord (s : State) (nbits w : Nat) : State := loadCommand (BitVec.ofNat 32 (w % 2 ^ nbits)) s

end Sys2Proof.Machine
end

