-- ==== Sys2Proof/Machine/Datapath.lean ====
section
/-! DEFINITION. The round datapath and its micro-state (10_state.md R53, 40_sha1.md R119): the iterative loop of u rounds per clock and the 80-stage pipeline. No program can see it; the step uses `compress`. -/

namespace Sys2Proof.Machine

/-- The micro-state of one compression (10_state.md R53): the working variables, the 16-word window W[t..t+15] of the
schedule, and the round counter t. -/
structure Micro where
  vars   : Vars
  window : Vector Word 16
  t      : Nat
deriving DecidableEq, Repr

/-- The start of a compression: W[0..15] are the block's words (40_sha1.md R104). -/
def Micro.start (h : Vector Word 5) (m : Vector Byte 64) : Micro :=
  { vars := Vars.start h, window := blockWords m, t := 0 }

/-- The window moved on by one word: its new last word is W[t+16] (40_sha1.md R104). -/
def shiftWindow (w : Vector Word 16) : Vector Word 16 :=
  Vector.ofFn fun i : Fin 16 =>
    if h : i.val + 1 < 16 then w[i.val + 1] else rotl (w[13] ^^^ w[8] ^^^ w[2] ^^^ w[0]) 1

/-- One round (40_sha1.md R105). -/
def Micro.round (x : Micro) : Micro :=
  { vars := Machine.round x.t x.window[0] x.vars, window := shiftWindow x.window, t := x.t + 1 }

/-- `k` rounds. -/
def Micro.rounds : Nat → Micro → Micro
  | 0, x => x
  | k + 1, x => Micro.rounds k x.round

/-- `k` clocks of the iterative datapath, `u` rounds each. -/
def Micro.clocks (u : Nat) : Nat → Micro → Micro
  | 0, x => x
  | k + 1, x => Micro.clocks u k (Micro.rounds u x)

/-- One clock of the pipeline: `input` enters stage 0, what each stage held goes through the next stage's round, and
what left the last stage is dropped. -/
def pipelineClock (input : Option Micro) (stages : List (Option Micro)) : List (Option Micro) :=
  ((input :: stages).take 80).map fun x => x.map Micro.round

/-- `k` clocks with no new block. -/
def pipelineDrain : Nat → List (Option Micro) → List (Option Micro)
  | 0, stages => stages
  | k + 1, stages => pipelineDrain k (pipelineClock none stages)

/-- The compression by a datapath (40_sha1.md R119), none where a pipeline has no result. -/
def compressBy (style : RoundStyle) (h : Vector Word 5) (m : Vector Byte 64) : Option (Vector Word 5) :=
  match style with
  | .iterative u => some (addChain h (Micro.clocks u (80 / u) (Micro.start h m)).vars)
  | .pipeline80 =>
    let stages := pipelineDrain 79 (pipelineClock (some (Micro.start h m)) (List.replicate 80 none))
    (stages.getD 79 none).map fun x => addChain h x.vars

end Sys2Proof.Machine
end

