-- ==== Sys2Proof/Machine/Platform.lean ====
section
/-! DEFINITION. Several instances on one bus (20_memory.md R60, R75; 60_exceptions.md R219): each with its own window, state and IRQ line. BASE and N_INSTANCES are data (92_eei_decisions.md D2, D38). -/

namespace Sys2Proof.Machine

/-- One instance: its BASE in units of the window size (20_memory.md R60) and its state. -/
structure Instance where
  page  : Nat
  state : State
deriving DecidableEq, Repr

/-- BASE, a multiple of 0x100 (20_memory.md R60). -/
def Instance.base (i : Instance) : Nat := Config.windowSize * i.page

/-- The instances of a platform; N_INSTANCES is the length (60_exceptions.md R219). -/
abbrev Platform := List Instance

/-- At least one instance, no two windows at one place (R219), and every instance draws from a source of its own, which
its page names, so that no two instances share a draw (R75; log 3 and 14, DESIGN CHOICE). -/
def Platform.ok (p : Platform) : Bool :=
  !p.isEmpty && decide (p.map Instance.page).Nodup && p.all fun i => i.state.drawSource == i.page

/-- The instance whose window holds a bus address, and the offset in it (20_memory.md R60); none outside every window,
where the bus is the platform's. -/
def Platform.route (p : Platform) (addr : Nat) : Option (Nat × BitVec 8) :=
  (p.findIdx? fun i => i.page == addr / Config.windowSize).map fun k => (k, BitVec.ofNat 8 (addr % Config.windowSize))

/-- The state of instance `k` replaced. -/
def Platform.setState (p : Platform) (k : Nat) (s : State) : Platform := p.modify k fun i => { i with state := s }

/-- A step of instance `k` (20_memory.md R75); no other instance takes part. -/
def Platform.stepAt (p : Platform) (k : Nat) : Host.Outcome Platform Fault Refusal :=
  match p[k]? with
  | none => .next p
  | some i =>
    match step i.state with
    | .next s => .next (p.setState k s)
    | .fault r => .fault r
    | .refused r => .refused r

/-- The IRQ lines, one per instance (60_exceptions.md R219). -/
def Platform.irqLines (p : Platform) : List Bool := p.map fun i => i.state.block.irq

end Sys2Proof.Machine
end

