-- ==== Sys2Proof/Machine/Reference.lean ====
section
/-! DEFINITION. The algorithms as one-shot functions of whole byte strings, which the commands compute in pieces: SHA-1 (00_scope.md R3, 40_sha1.md R110 to R112), HMAC-SHA1 (41_hmac.md R141 to R143), TOTP (42_totp.md R171 to R173); and a sequence of commands run one after another, each with its own DIN (41_hmac.md R147). -/

namespace Sys2Proof.Machine

/-- The padding of a message of `n` bytes (40_sha1.md R110; 90_conflicts.md C1): 0x80, zero bytes up to 56 modulo 64,
then the bit length in 8 bytes, big-endian. -/
def padding (n : Nat) : List Byte :=
  0x80 :: (List.replicate ((119 - n % 64) % 64) 0x00 ++ be64 (BitVec.ofNat 64 (8 * n)))

/-- The i-th 64-byte block of a byte string. -/
def blockAt (s : List Byte) (i : Nat) : Vector Byte 64 := Vector.ofFn fun j : Fin 64 => s.getD (64 * i + j.val) 0

/-- The chaining state after the first `n` blocks of a byte string. -/
def chainBlocks (s : List Byte) (n : Nat) : Vector Word 5 :=
  (List.range n).foldl (fun h i => compress h (blockAt s i)) sha1IV

/-- SHA-1 of a message, as five words (40_sha1.md R112). -/
def sha1Words (m : List Byte) : Vector Word 5 :=
  let padded := m ++ padding m.length
  chainBlocks padded (padded.length / 64)

/-- SHA-1 of a message, as 20 bytes (40_sha1.md R111, R112). -/
def sha1 (m : List Byte) : Vector Byte 20 := digestBytes (sha1Words m)

/-- K0 of a whole key (41_hmac.md R141). -/
def keyBlock (key : List Byte) : Vector Byte 64 :=
  if 64 < key.length then padKey (sha1 key) else Vector.ofFn fun i : Fin 64 => key.getD i.val 0

/-- HMAC-SHA1 (41_hmac.md R143): `SHA1(outerPad || SHA1(innerPad || message))`. -/
def hmac (key message : List Byte) : Vector Byte 20 :=
  sha1 ((xorAll (keyBlock key) 0x5C).toList
    ++ (sha1 ((xorAll (keyBlock key) 0x36).toList ++ message)).toList)

/-- The HMAC digest of a one-time password (42_totp.md R171 to R173), for INTERVAL ≠ 0. -/
def totpDigest (secret : List Byte) (interval : Word) (ts : U64) : Vector Byte 20 :=
  hmac secret (be64 (ts / interval.setWidth 64))

/-- A command with the DIN words the host has loaded for it. -/
structure LoadedCommand where
  din : Vector Word 16
  cmd : Instr
deriving DecidableEq, Repr

/-- The commands one after another, each run to its completion with its own DIN (41_hmac.md R147). -/
def execAll : List LoadedCommand → State → Host.Outcome State Fault Refusal
  | [], s => .next s
  | c :: cs, s =>
    match exec c.cmd { s with block := { s.block with din := c.din } } with
    | .next t => execAll cs t
    | .fault r => .fault r
    | .refused r => .refused r

/-- One piece of a byte string as the host delivers it: DIN, and the count N of bytes used (30_encoding.md R81). -/
structure Piece where
  din   : Vector Word 16
  count : Byte
deriving DecidableEq, Repr

/-- The bytes of a piece, DINB[0..N−1]. -/
def Piece.bytes (p : Piece) : List Byte := (dinBytes p.din).toList.take p.count.toNat

/-- The byte string cut into the pieces. -/
def piecesBytes (ps : List Piece) : List Byte := ps.flatMap Piece.bytes

/-- Every piece holds at most 64 bytes (30_encoding.md R81). -/
def piecesOk (ps : List Piece) : Bool := ps.all fun p => p.count.toNat ≤ maxCount

/-- The N-format command `cmd` for each piece, in order. -/
def feed (cmd : Byte → Instr) (ps : List Piece) : List LoadedCommand :=
  ps.map fun p => { din := p.din, cmd := cmd p.count }

/-- The command sequence of a plain SHA-1 of the message `ms` (40_sha1.md R114 to R116); `d` is what DIN holds at the
commands that do not read it. -/
def shaCommands (d : Vector Word 16) (ms : List Piece) : List LoadedCommand :=
  [{ din := d, cmd := .shaInit }] ++ feed .shaUpdate ms ++ [{ din := d, cmd := .shaFinal }]

/-- The command sequence of R147: the HMAC of the key `ks` and the message `ms`; `d` is what DIN holds at the commands
that do not read it. -/
def hmacCommands (d : Vector Word 16) (ks ms : List Piece) : List LoadedCommand :=
  [{ din := d, cmd := .hmacInit }] ++ feed .hmacKey ks ++ [{ din := d, cmd := .hmacStart }]
    ++ feed .hmacMsg ms ++ [{ din := d, cmd := .hmacFinal }]

/-- The command sequence of a one-time password for the secret `ks` (30_encoding.md R95, 42_totp.md R181). -/
def totpCommands (d : Vector Word 16) (ks : List Piece) : List LoadedCommand :=
  [{ din := d, cmd := .hmacInit }] ++ feed .hmacKey ks ++ [{ din := d, cmd := .totpGen }]

end Sys2Proof.Machine
end

