-- ==== Sys2Proof/Machine/Timing.lean ====
section
/-! DEFINITION. The compression counts of the commands (70_reset_and_hazards.md R242, 41_hmac.md R153) and the non-normative cycle estimates (R243). No step depends on them (R246). -/

namespace Sys2Proof.Machine

/-- The compressions made while the bytes `s` enter the buffer one by one, counted on the machine itself
(40_sha1.md R108, R110). -/
def compressionsIn : List Byte → HashCtx → Nat
  | [], _ => 0
  | x :: s, c => (if c.bufcnt.val + 1 = 64 then 1 else 0) + compressionsIn s (padByte x c)

/-- Compressions of `n` bytes into a buffer of `cnt` bytes. -/
def fills (cnt n : Nat) : Nat := (cnt + n) / 64

/-- Compressions of `shaFinal` (40_sha1.md R110): 1 for BUFCNT ≤ 55, else 2. -/
def finalFills (cnt : Nat) : Nat := if cnt ≤ 55 then 1 else 2

/-- Compressions of `hmacStart` (70_reset_and_hazards.md R242, 41_hmac.md R153). -/
def startFills (c : Context) : Nat := (if 64 < c.keylen.toNat then finalFills c.hash.bufcnt.val else 0) + 1

/-- The table of 70_reset_and_hazards.md R242: the compressions of a command accepted in the block `b`. -/
def compressions (i : Instr) (b : Block) : Nat :=
  let cnt := b.ctx.hash.bufcnt.val
  let held := b.ctx.keylen.toNat
  match i with
  | .shaInit => 0
  | .shaUpdate n => fills cnt n.toNat
  | .shaFinal => finalFills cnt
  | .shaCompress => 1
  | .shaSeth => 0
  | .hmacInit => 0
  | .hmacKey n =>
    if held + n.toNat ≤ 64 then 0
    else if held ≤ 64 then 1 + fills 0 (held + n.toNat - 64)
    else fills cnt n.toNat
  | .hmacStart => startFills b.ctx
  | .hmacMsg n => fills cnt n.toNat
  | .hmacFinal => finalFills cnt + 2
  | .totpGen => startFills b.ctx + 1 + 2
  | .totpTrunc => 0

/-- The cycles of one compression, about (70_reset_and_hazards.md R243). -/
def cyclesPerCompression : RoundStyle → Nat
  | .iterative u => 80 / u + 1
  | .pipeline80 => 81

end Sys2Proof.Machine
end

