-- ==== Sys2Proof/Safety.lean ====
section
/-! DEFINITION. What a run of the block keeps: the invariants of 10_state.md R46 to R52, 41_hmac.md R144 and 42_totp.md R183, and the inputs that cannot stop or reset it. -/

namespace Sys2Proof.Machine

/-- PENDING holds no word, or a command that passes every check in the state as it stands (30_encoding.md R85,
20_memory.md R67). -/
def Block.pendingOk (b : Block) : Bool :=
  match b.pending with
  | none => true
  | some v =>
    match decode v with
    | .ok i => commandError i b == none
    | .error _ => false

/-- The invariants of the block. -/
structure Block.Inv (b : Block) : Prop where
  /-- 10_state.md R47: an open computation's BUFCNT -/
  bufcnt_open : b.ctx.phase ≠ .idle → b.ctx.hash.bufcnt.val = b.ctx.hash.len.toNat % 64
  /-- 10_state.md R47: BUFCNT in IDLE -/
  bufcnt_idle : b.ctx.phase = .idle → b.ctx.hash.bufcnt.val = 0
  /-- 10_state.md R48 -/
  len_le : b.ctx.hash.len.toNat ≤ Config.lmax
  /-- 10_state.md R50 -/
  keylen_le : b.ctx.keylen.toNat ≤ Config.lmax
  /-- 10_state.md R49, R50: no key outside an HMAC computation -/
  key_cleared : b.ctx.phase = .idle ∨ b.ctx.phase = .sha → b.ctx.keybuf = zeros64 ∧ b.ctx.keylen = 0
  /-- 10_state.md R49 and 41_hmac.md R144: a key of at most 64 bytes is held, zeros after it, and nothing is hashed -/
  key_held : b.ctx.phase = .hkey → b.ctx.keylen.toNat ≤ 64 →
    b.ctx.hash.h = sha1IV ∧ b.ctx.hash.len = 0 ∧
      ∀ i : Fin 64, b.ctx.keylen.toNat ≤ i.val → b.ctx.keybuf[i] = 0
  /-- 41_hmac.md R144: a longer key is being hashed -/
  key_hashed : b.ctx.phase = .hkey → 64 < b.ctx.keylen.toNat → b.ctx.hash.len = b.ctx.keylen
  /-- 41_hmac.md R145: the inner pad counts in LEN -/
  msg_len : b.ctx.phase = .hmsg → 64 ≤ b.ctx.hash.len.toNat
  /-- 10_state.md R41, 42_totp.md R183 -/
  trunc_lt : b.trunc.toNat < 2 ^ 31
  /-- 42_totp.md R176 -/
  code_lt : b.code.toNat < 10 ^ 9
  /-- 20_memory.md R67, 30_encoding.md R85 -/
  pending_ok : b.pendingOk = true

/-- The invariants of the machine. -/
abbrev State.Inv (s : State) : Prop := s.block.Inv

/-- An access the block serves (20_memory.md R61). -/
def Access.ok : Access → Bool
  | .read off size => served off size
  | .write off size _ => served off size

/-- An input that is no bus error. -/
def Input.ok : Input → Bool
  | .host a => a.ok
  | .engine => true
  | .hardReset => true

/-- A host access that the block serves and that is no soft reset: what may happen between a command's acceptance and
its completion (20_memory.md R67, R70). -/
def Input.quiet : Input → Bool
  | .host (.read off size) => served off size
  | .host (.write off size v) => served off size && !(regAt off == .ctrl && v.getLsbD 0)
  | .engine => false
  | .hardReset => false

end Sys2Proof.Machine
end

