-- ==== Sys2Proof/Certificates/Slice0/Obligations.lean ====
section
/-! DEFINITION. The statements for the provers, from the numbered rules of spec/. -/

open Sys2Proof Sys2Proof.Machine

/-! ### Encoding -/

/-- 30_encoding.md R80 to R90: a word decodes to a command exactly when the command is well formed and the word is its
encoding; so no two words are one command, no word is two, and every other word is rejected. -/
def Obligations.DecodeIffEncode : Prop :=
  ∀ (v : Word) (i : Instr), decode v = .ok i ↔ (i.WellFormed ∧ encode i = v)

/-- 30_encoding.md R86, R87, R88 and 60_exceptions.md R201: which words are illegal, by name, and that such a word is
rejected with ILLEGAL. -/
def Obligations.IllegalWords : Prop :=
  ∀ (v : Word) (b : Block), b.err = .noError →
    let opc := v.toNat % 256
    let low := v.toNat < 2 ^ 16
    (2 ^ 16 ≤ v.toNat → decode v = .error .reservedBits) ∧
    (low → opc ∉ [0x01, 0x02, 0x03, 0x04, 0x05, 0x11, 0x12, 0x13, 0x14, 0x15, 0x21, 0x22] →
      decode v = .error .reservedOpcode) ∧
    (low → opc ∈ [0x01, 0x03, 0x04, 0x05, 0x11, 0x13, 0x15, 0x21, 0x22] → v.toNat / 256 ≠ 0 →
      decode v = .error .countNotZero) ∧
    (low → opc ∈ [0x02, 0x12, 0x14] → 64 < v.toNat / 256 → decode v = .error .countTooLarge) ∧
    (∀ e, decode v = .error e → presentCommand v b = { b with err := .illegal, done := true })

/-- 30_encoding.md R98: the encoding examples. -/
def Obligations.EncodingExamples : Prop :=
  decode 0x00000001 = .ok .shaInit ∧ decode 0x00000302 = .ok (.shaUpdate 3) ∧
  decode 0x00004002 = .ok (.shaUpdate 64) ∧ decode 0x00000002 = .ok (.shaUpdate 0) ∧
  decode 0x00001412 = .ok (.hmacKey 20) ∧ decode 0x00000814 = .ok (.hmacMsg 8) ∧
  decode 0x00000021 = .ok .totpGen ∧ decode 0x00000000 = .error .reservedOpcode ∧
  decode 0x00004102 = .error .countTooLarge ∧ decode 0x00000103 = .error .countNotZero ∧
  decode 0x00010001 = .error .reservedBits ∧ decode 0x00000023 = .error .reservedOpcode

/-- 30_encoding.md R93: every well-formed command has its syntax, and what the syntax names is well formed and assembles
to `opc | (N << 8)`. -/
def Obligations.CommandSyntax : Prop :=
  (∀ i : Instr, i.WellFormed →
    parse i.mnemonic (if i.isNFormat then some i.count.toNat else none) = some i) ∧
  (∀ (m : String) (c : Option Nat) (i : Instr), parse m c = some i →
    i.WellFormed ∧ i.mnemonic = m ∧
    assemble m c = some (BitVec.ofNat 32 (i.opcode.toNat + 256 * i.count.toNat)))

/-! ### The SHA-1 engine -/

/-- 40_sha1.md R102: the round functions and constants of the four phases of rounds. -/
def Obligations.RoundTable : Prop :=
  ∀ (t : Nat) (b c d : Word),
    (t ≤ 19 → roundF t b c d = (b &&& c) ||| (~~~b &&& d) ∧ roundK t = 0x5A827999) ∧
    (20 ≤ t → t ≤ 39 → roundF t b c d = b ^^^ c ^^^ d ∧ roundK t = 0x6ED9EBA1) ∧
    (40 ≤ t → t ≤ 59 → roundF t b c d = (b &&& c) ||| (b &&& d) ||| (c &&& d) ∧ roundK t = 0x8F1BBCDC) ∧
    (60 ≤ t → t ≤ 79 → roundF t b c d = b ^^^ c ^^^ d ∧ roundK t = 0xCA62C1D6)

/-- 40_sha1.md R104: the schedule has 80 words; the first 16 are the block's, big-endian, and the others follow the
recurrence. -/
def Obligations.ScheduleRecurrence : Prop :=
  ∀ m : Vector Byte 64,
    (schedule m).length = 80 ∧
    (∀ (t : Nat) (h : t < 16), (schedule m).getD t 0 = w32At m (4 * t)) ∧
    (∀ t : Nat, 16 ≤ t → t < 80 →
      (schedule m).getD t 0
        = rotl ((schedule m).getD (t - 3) 0 ^^^ (schedule m).getD (t - 8) 0
            ^^^ (schedule m).getD (t - 14) 0 ^^^ (schedule m).getD (t - 16) 0) 1)

/-- 40_sha1.md R103, R105, R106: the working variables start as H, 80 rounds of the standard step act on them, and the
final addition gives the new chaining state. -/
def Obligations.CompressIsEightyRounds : Prop :=
  ∀ (h : Vector Word 5) (m : Vector Byte 64) (vs : Nat → Vars),
    vs 0 = { a := h[0], b := h[1], c := h[2], d := h[3], e := h[4] } →
    (∀ t, t < 80 → vs (t + 1) =
      { a := rotl (vs t).a 5 + roundF t (vs t).b (vs t).c (vs t).d + (vs t).e + roundK t + (schedule m).getD t 0
        b := (vs t).a
        c := rotl (vs t).b 30
        d := (vs t).c
        e := (vs t).d }) →
    compress h m
      = #v[h[0] + (vs 80).a, h[1] + (vs 80).b, h[2] + (vs 80).c, h[3] + (vs 80).d, h[4] + (vs 80).e]

/-- 40_sha1.md R119: the iterative loop of u rounds per clock, u dividing 80, and the 80-stage pipeline both compute
`compress` exactly. The inside of the two datapaths is the model's own (log 13, DESIGN CHOICE). -/
def Obligations.DatapathsComputeCompress : Prop :=
  ∀ (style : RoundStyle) (h : Vector Word 5) (m : Vector Byte 64),
    style.ok = true → compressBy style h m = some (compress h m)

/-- 40_sha1.md R112, the streaming law, of the primitives: the hash of the pieces, in whatever cut, is SHA-1 of the whole
message; and of the commands (R114 to R116): SHA_INIT, SHA_UPDATE over pieces of at most 64 bytes and SHA_FINAL complete,
from every state, and leave SHA-1 of the message in DIGEST. -/
def Obligations.StreamingLaw : Prop :=
  (∀ pieces : List (List Byte), pieces.flatten.length ≤ Config.lmax →
    digestBytes (shaFinal (pieces.foldl (fun c s => absorb s c) shaInit)).h = sha1 pieces.flatten) ∧
  (∀ (d : Vector Word 16) (ms : List Piece) (s : State),
    piecesOk ms = true → (piecesBytes ms).length ≤ Config.lmax →
    ∃ t : State, execAll (shaCommands d ms) s = .next t ∧ digestBytes t.block.digest = sha1 (piecesBytes ms))

/-- 10_state.md R46: the bytes of BUF beyond BUFCNT have no meaning. Two hash contexts that differ only there absorb and
finish alike. -/
def Obligations.BufferTailIsMeaningless : Prop :=
  ∀ (c c' : HashCtx) (s : List Byte),
    c.h = c'.h → c.bufcnt = c'.bufcnt → c.len = c'.len →
    (∀ k : Fin 64, k.val < c.bufcnt.val → c.buf[k] = c'.buf[k]) →
    (absorb s c).h = (absorb s c').h ∧ (absorb s c).bufcnt = (absorb s c').bufcnt ∧
    (absorb s c).len = (absorb s c').len ∧
    (∀ k : Fin 64, k.val < (absorb s c).bufcnt.val → (absorb s c).buf[k] = (absorb s c').buf[k]) ∧
    (shaFinal (absorb s c)).h = (shaFinal (absorb s c')).h

/-- 40_sha1.md R114: SHA_INIT opens a fresh context in phase SHA and clears the key; nothing else changes but BUSY and
DONE. -/
def Obligations.ShaInitOpensContext : Prop :=
  ∀ s : State, exec .shaInit s = .next { s with block := { s.block with
    ctx := {
      hash := {
        h := #v[0x67452301, 0xEFCDAB89, 0x98BADCFE, 0x10325476, 0xC3D2E1F0]
        buf := Vector.replicate 64 0
        bufcnt := 0
        len := 0 }
      keybuf := Vector.replicate 64 0
      keylen := 0
      phase := .sha }
    pending := none
    done := true } }

/-- 40_sha1.md R115, 41_hmac.md R151: SHA_UPDATE N and HMAC_MSG N when the bytes do not fill the buffer: they are stored
at BUF[BUFCNT], BUFCNT and LEN grow by N, H stays. -/
def Obligations.AbsorbWithoutFill : Prop :=
  ∀ (n : Byte) (i : Instr) (s : State), i = .shaUpdate n ∨ i = .hmacMsg n →
    let old := s.block.ctx.hash
    old.bufcnt.val + n.toNat < 64 →
    ∃ new : HashCtx,
      exec i s = .next { s with block := { s.block with
        ctx := { s.block.ctx with hash := new }, pending := none, done := true } } ∧
      new.h = old.h ∧ new.bufcnt.val = old.bufcnt.val + n.toNat ∧ new.len = old.len + n.setWidth 64 ∧
      ∀ k : Fin 64, new.buf[k] =
        if old.bufcnt.val ≤ k.val ∧ k.val < old.bufcnt.val + n.toNat
        then (dinBytes s.block.din)[k.val - old.bufcnt.val]
        else old.buf[k]

/-- 40_sha1.md R115, 41_hmac.md R151: SHA_UPDATE N and HMAC_MSG N when the bytes fill the buffer: exactly one compression,
of BUF[0..BUFCNT−1] and the first 64 − BUFCNT operand bytes; the rest of them start the next block. -/
def Obligations.AbsorbWithFill : Prop :=
  ∀ (n : Byte) (i : Instr) (s : State), i = .shaUpdate n ∨ i = .hmacMsg n → n.toNat ≤ 64 →
    let old := s.block.ctx.hash
    let dinb := dinBytes s.block.din
    64 ≤ old.bufcnt.val + n.toNat →
    ∃ new : HashCtx,
      exec i s = .next { s with block := { s.block with
        ctx := { s.block.ctx with hash := new }, pending := none, done := true } } ∧
      new.h = compress old.h (Vector.ofFn fun k : Fin 64 =>
        if k.val < old.bufcnt.val then old.buf[k] else dinb[k.val - old.bufcnt.val]) ∧
      new.bufcnt.val = old.bufcnt.val + n.toNat - 64 ∧ new.len = old.len + n.setWidth 64 ∧
      ∀ k : Nat, k < old.bufcnt.val + n.toNat - 64 →
        new.buf.toList.getD k 0 = dinb.toList.getD (64 - old.bufcnt.val + k) 0

/-- 40_sha1.md R116, R110: SHA_FINAL pads with 0x80, zeros and the big-endian bit length; one block when BUFCNT ≤ 55, two
when it is 56..63. DIGEST and H are the final chaining state, LEN is kept, BUFCNT is 0, PHASE is IDLE. -/
def Obligations.ShaFinalPadsAndOutputs : Prop :=
  ∀ s : State,
    let old := s.block.ctx.hash
    let length := be64 (old.len * 8)
    ∃ new : HashCtx,
      exec .shaFinal s = .next { s with block := { s.block with
        digest := new.h
        ctx := { s.block.ctx with hash := new, phase := .idle }
        pending := none
        done := true } } ∧
      new.bufcnt = 0 ∧ new.len = old.len ∧
      (old.bufcnt.val ≤ 55 → new.h = compress old.h (Vector.ofFn fun k : Fin 64 =>
        if k.val < old.bufcnt.val then old.buf[k] else if k.val = old.bufcnt.val then 0x80
        else if k.val < 56 then 0 else length.getD (k.val - 56) 0)) ∧
      (56 ≤ old.bufcnt.val → new.h =
        compress
          (compress old.h (Vector.ofFn fun k : Fin 64 =>
            if k.val < old.bufcnt.val then old.buf[k] else if k.val = old.bufcnt.val then 0x80 else 0))
          (Vector.ofFn fun k : Fin 64 => if k.val < 56 then 0 else length.getD (k.val - 56) 0))

/-- 40_sha1.md R117, R118: SHA_COMPRESS compresses the DIN block into H, SHA_SETH loads H from DIN0..DIN4; nothing else
changes but BUSY and DONE. -/
def Obligations.RawCompressAndLoad : Prop :=
  ∀ s : State,
    let hash := s.block.ctx.hash
    let din := s.block.din
    exec .shaCompress s = .next { s with block := { s.block with
      ctx := { s.block.ctx with hash := { hash with h := compress hash.h (dinBytes din) } }
      pending := none
      done := true } } ∧
    exec .shaSeth s = .next { s with block := { s.block with
      ctx := { s.block.ctx with hash := { hash with h := #v[din[0], din[1], din[2], din[3], din[4]] } }
      pending := none
      done := true } }

/-! ### The HMAC controller -/

/-- 41_hmac.md R148: HMAC_INIT opens a fresh context in phase HKEY and clears the key; nothing else changes but BUSY and
DONE. -/
def Obligations.HmacInitOpensContext : Prop :=
  ∀ s : State, exec .hmacInit s = .next { s with block := { s.block with
    ctx := {
      hash := {
        h := #v[0x67452301, 0xEFCDAB89, 0x98BADCFE, 0x10325476, 0xC3D2E1F0]
        buf := Vector.replicate 64 0
        bufcnt := 0
        len := 0 }
      keybuf := Vector.replicate 64 0
      keylen := 0
      phase := .hkey }
    pending := none
    done := true } }

/-- 41_hmac.md R144, R149: HMAC_KEY N holds the key bytes in KEYBUF while there is room; the 65th key byte moves the held
64 into the hash, and later ones go straight to it. -/
def Obligations.HmacKeyHoldsOrHashes : Prop :=
  ∀ (n : Byte) (s : State), n.toNat ≤ 64 →
    let ctx := s.block.ctx
    let held := ctx.keylen.toNat
    let dinb := dinBytes s.block.din
    held + n.toNat ≤ Config.lmax →
    let filled : Vector Byte 64 := Vector.ofFn fun k : Fin 64 =>
      if held ≤ k.val ∧ k.val < held + n.toNat then dinb[k.val - held] else ctx.keybuf[k]
    let ends := fun c : Context => Host.Outcome.next (φ := Fault) (ρ := Refusal)
      { s with block := { s.block with ctx := c, pending := none, done := true } }
    (held + n.toNat ≤ 64 →
      exec (.hmacKey n) s = ends { ctx with keybuf := filled, keylen := ctx.keylen + n.setWidth 64 }) ∧
    (held ≤ 64 → 64 < held + n.toNat →
      exec (.hmacKey n) s = ends { ctx with
        keybuf := filled
        hash := absorb ((dinb.toList.take n.toNat).drop (64 - held)) (absorb filled.toList ctx.hash)
        keylen := ctx.keylen + n.setWidth 64 }) ∧
    (64 < held →
      exec (.hmacKey n) s = ends { ctx with
        hash := absorb (dinb.toList.take n.toNat) ctx.hash
        keylen := ctx.keylen + n.setWidth 64 })

/-- 41_hmac.md R145, R150: HMAC_START keeps K0 in KEYBUF (the held key, or the digest of a key longer than 64 bytes with
44 zero bytes) and leaves the inner pad absorbed: one compression from the IV, LEN 64, BUFCNT 0, PHASE HMSG. -/
def Obligations.HmacStartAbsorbsInnerPad : Prop :=
  ∀ s : State,
    let ctx := s.block.ctx
    ∃ (k0 : Vector Byte 64) (new : HashCtx),
      exec .hmacStart s = .next { s with block := { s.block with
        ctx := { ctx with hash := new, keybuf := k0, phase := .hmsg }, pending := none, done := true } } ∧
      (ctx.keylen.toNat ≤ 64 → k0 = ctx.keybuf) ∧
      (64 < ctx.keylen.toNat → k0.toList =
        (digestBytes (shaFinal ctx.hash).h).toList ++ List.replicate 44 0) ∧
      new.h = compress #v[0x67452301, 0xEFCDAB89, 0x98BADCFE, 0x10325476, 0xC3D2E1F0]
        (Vector.ofFn fun k : Fin 64 => k0[k] ^^^ 0x36) ∧
      new.bufcnt = 0 ∧ new.len = 64

/-- 41_hmac.md R146, R152: HMAC_FINAL finishes the inner hash, and H and DIGEST are the outer hash: the outer pad, then
one block of the inner digest and the padding of 84 bytes (672 bits, 0x2A0). The key is cleared, LEN is 84, BUFCNT 0,
PHASE IDLE. -/
def Obligations.HmacFinalOuterHash : Prop :=
  ∀ s : State,
    let ctx := s.block.ctx
    let inner := digestBytes (shaFinal ctx.hash).h
    ∃ new : HashCtx,
      exec .hmacFinal s = .next { s with block := { s.block with
        digest := new.h
        ctx := { hash := new, keybuf := Vector.replicate 64 0, keylen := 0, phase := .idle }
        pending := none
        done := true } } ∧
      new.h = compress
        (compress #v[0x67452301, 0xEFCDAB89, 0x98BADCFE, 0x10325476, 0xC3D2E1F0]
          (Vector.ofFn fun k : Fin 64 => ctx.keybuf[k] ^^^ 0x5C))
        (Vector.ofFn fun k : Fin 64 =>
          if h : k.val < 20 then inner[k.val] else if k.val = 20 then 0x80
          else if k.val = 62 then 0x02 else if k.val = 63 then 0xA0 else 0) ∧
      new.bufcnt = 0 ∧ new.len = 84

/-- 41_hmac.md R147, the HMAC law: HMAC_INIT, the key in pieces, HMAC_START, the message in pieces, HMAC_FINAL leave the
HMAC of R143 in DIGEST, whatever the cut, from every state. -/
def Obligations.HmacLaw : Prop :=
  ∀ (d : Vector Word 16) (ks ms : List Piece) (s : State),
    piecesOk ks = true → piecesOk ms = true →
    (piecesBytes ks).length ≤ Config.lmax → 64 + (piecesBytes ms).length ≤ Config.lmax →
    ∃ t : State, execAll (hmacCommands d ks ms) s = .next t ∧
      digestBytes t.block.digest = hmac (piecesBytes ks) (piecesBytes ms)

/-! ### The TOTP unit -/

/-- 42_totp.md R181 with R171 to R178: with a legal digit count and an interval, TOTP_GEN completes; COUNTER is
TS div INTERVAL, DIGEST the HMAC of K0 over its 8 bytes, TRUNC, CODE and CODE_STR their truncation; the key is cleared, LEN
is 84, BUFCNT 0, PHASE IDLE, and nothing else changes but BUSY and DONE. -/
def Obligations.TotpGenResult : Prop :=
  ∀ s : State, 1 ≤ s.block.digits.toNat → s.block.digits.toNat ≤ 9 → s.block.interval ≠ 0 →
    let counter : U64 := s.block.ts / s.block.interval.setWidth 64
    let k0 := deriveK0 s.block.ctx
    let out := sha1 ((xorAll k0 0x5C).toList ++ (sha1 ((xorAll k0 0x36).toList ++ be64 counter)).toList)
    ∃ new : HashCtx,
      exec .totpGen s = .next { s with block := { s.block with
        counter := counter
        digest := new.h
        trunc := truncValue out
        code := codeOf (truncValue out) s.block.digits
        codeStr := codeStrOf (truncValue out) s.block.digits
        ctx := { hash := new, keybuf := Vector.replicate 64 0, keylen := 0, phase := .idle }
        pending := none
        done := true } } ∧
      digestBytes new.h = out ∧ new.bufcnt = 0 ∧ new.len = 84

/-- 42_totp.md R173, R184: the one-time password of a secret given in pieces depends on the secret, DIGITS, INTERVAL and
TS alone, from every state, and is that of the six steps. -/
def Obligations.TotpLaw : Prop :=
  ∀ (d : Vector Word 16) (ks : List Piece) (s : State),
    piecesOk ks = true → (piecesBytes ks).length ≤ Config.lmax →
    1 ≤ s.block.digits.toNat → s.block.digits.toNat ≤ 9 → s.block.interval ≠ 0 →
    let out := totpDigest (piecesBytes ks) s.block.interval s.block.ts
    ∃ t : State, execAll (totpCommands d ks) s = .next t ∧
      t.block.counter = s.block.ts / s.block.interval.setWidth 64 ∧
      digestBytes t.block.digest = out ∧ t.block.trunc = truncValue out ∧
      t.block.code.toNat = (truncValue out).toNat % 10 ^ s.block.digits.toNat ∧
      t.block.codeStr = codeStrOf (truncValue out) s.block.digits

/-- 42_totp.md R184, the step-boundary property: two timestamps of one time step give the same counter and the same code,
with the same secret state, DIGITS and INTERVAL. -/
def Obligations.StepBoundary : Prop :=
  ∀ (s s' t t' : State), s'.block.ctx = s.block.ctx → s'.block.digits = s.block.digits →
    s'.block.interval = s.block.interval → s.block.interval ≠ 0 →
    s'.block.ts.toNat / s.block.interval.toNat = s.block.ts.toNat / s.block.interval.toNat →
    exec .totpGen s = .next t → exec .totpGen s' = .next t' →
    t'.block.counter = t.block.counter ∧ t'.block.digest = t.block.digest ∧ t'.block.trunc = t.block.trunc ∧
    t'.block.code = t.block.code ∧ t'.block.codeStr = t.block.codeStr

/-- 42_totp.md R182: with a legal digit count, TOTP_TRUNC completes and writes TRUNC, CODE and CODE_STR from DIGEST;
nothing else changes but BUSY and DONE. -/
def Obligations.TotpTruncResult : Prop :=
  ∀ s : State, 1 ≤ s.block.digits.toNat → s.block.digits.toNat ≤ 9 →
    let value := truncValue (digestBytes s.block.digest)
    let code : Word := BitVec.ofNat 32 (value.toNat % 10 ^ s.block.digits.toNat)
    exec .totpTrunc s = .next { s with block := { s.block with
      trunc := value
      code := code
      codeStr := strWords (Vector.ofFn fun k : Fin 12 => codeChar code s.block.digits k.val)
      pending := none
      done := true } }

/-- 42_totp.md R174, R175: the truncated value is the four digest bytes from the offset (the low four bits of the last
byte), the first with its top bit cleared and the other three whole. -/
def Obligations.TruncatedValue : Prop :=
  ∀ d : Vector Byte 20,
    (truncOffset d).val = d[19].toNat % 16 ∧
    (truncValue d).toNat =
      (d.toList.getD (d[19].toNat % 16) 0).toNat % 128 * 2 ^ 24
        + (d.toList.getD (d[19].toNat % 16 + 1) 0).toNat * 2 ^ 16
        + (d.toList.getD (d[19].toNat % 16 + 2) 0).toNat * 2 ^ 8
        + (d.toList.getD (d[19].toNat % 16 + 3) 0).toNat

/-- 42_totp.md R183: offset + 3 lies inside the digest, TRUNC is a 31-bit value, CODE is below 10^digits, and exactly
`digits` characters are ASCII digits, the rest 0x00. -/
def Obligations.TruncationBounds : Prop :=
  ∀ (d : Vector Byte 20) (digits : BitVec 4), 1 ≤ digits.toNat → digits.toNat ≤ 9 →
    (truncOffset d).val + 3 ≤ 18 ∧ (truncValue d).toNat ≤ 2 ^ 31 - 1 ∧
    (codeOf (truncValue d) digits).toNat < 10 ^ digits.toNat ∧
    (∀ k : Fin 12, k.val < digits.toNat →
      0x30 ≤ (strBytes (codeStrOf (truncValue d) digits))[k].toNat ∧
      (strBytes (codeStrOf (truncValue d) digits))[k].toNat ≤ 0x39) ∧
    (∀ k : Fin 12, digits.toNat ≤ k.val → (strBytes (codeStrOf (truncValue d) digits))[k] = 0)

/-- 42_totp.md R176, R177: the code is the value modulo 10^digits; character i of CODE_STR is its ASCII digit of weight
10^(digits − 1 − i) for i below digits, else 0x00; and the `digits` characters, read as a decimal numeral most significant
digit first, are the code. -/
def Obligations.CodeStringIsDecimal : Prop :=
  ∀ (value : Word) (digits : BitVec 4), 1 ≤ digits.toNat → digits.toNat ≤ 9 →
    (codeOf value digits).toNat = value.toNat % 10 ^ digits.toNat ∧
    (∀ k : Fin 12, (strBytes (codeStrOf value digits))[k].toNat =
      if k.val < digits.toNat
      then 0x30 + (value.toNat % 10 ^ digits.toNat) / 10 ^ (digits.toNat - 1 - k.val) % 10
      else 0) ∧
    (((strBytes (codeStrOf value digits)).toList.take digits.toNat).foldl
      (fun n c => 10 * n + (c.toNat - 0x30)) 0) = (codeOf value digits).toNat

/-! ### Steps, acceptance and errors -/

/-- 20_memory.md R67: when the engine moves and PENDING holds the word of a command, the step is that command's effect
and completion on the state as it stands; with PENDING = none the engine has no effect. -/
def Obligations.EngineStepRunsPending : Prop :=
  ∀ (s : State) (v : Word) (i : Instr) (rest : List Input),
    (s.inputs = .engine :: rest → s.block.pending = some v → decode v = .ok i →
      step s = exec i { s with inputs := rest }) ∧
    (s.inputs = [] → s.block.pending = some v → decode v = .ok i → step s = exec i s) ∧
    (s.inputs = .engine :: rest → s.block.pending = none → step s = .next { s with inputs := rest }) ∧
    (s.inputs = [] → s.block.pending = none → step s = .next s)

/-- 20_memory.md R61, R64, R67, 10_state.md R22: a served host access is the step; a write acts on the register at its
offset, a read returns its value and leaves the block unchanged. -/
def Obligations.HostStepAccesses : Prop :=
  ∀ (s : State) (off : BitVec 8) (v : Word) (rest : List Input), off.toNat % 4 = 0 →
    (s.inputs = .host (.write off 32 v) :: rest →
      step s = .next { s with inputs := rest, block := writeReg (regAt off) v s.block }) ∧
    (s.inputs = .host (.read off 32) :: rest →
      step s = .next { s with
        inputs := rest
        lastRead := some (readReg (regAt off) s.block (Config.draw s.drawSource s.draws))
        draws := s.draws + 1 })

/-- 20_memory.md R62: an access that is not 32 bits wide or not aligned is a bus error, and the block is unchanged. -/
def Obligations.BadAccessIsBusError : Prop :=
  ∀ (s : State) (off : BitVec 8) (size : Nat) (v : Word) (rest : List Input) (a : Access),
    a = .read off size ∨ a = .write off size v → s.inputs = .host a :: rest →
    size ≠ 32 ∨ off.toNat % 4 ≠ 0 → step s = .fault (.busError s.block)

/-- 60_exceptions.md R210, 20_memory.md R67, 10_state.md R30: every command completes, with no error code set: PENDING is
none, DONE is 1, ERR is unchanged. That it completes from every state, those that no accepted command meets included
(INTERVAL = 0, DIGITS outside 1..9, states outside every run), is the model's choice (logs 5, 6 and 7), and the fields it
leaves alone beside the block are the model's own (logs 1, 2 and 3). -/
def Obligations.EveryCommandCompletes : Prop :=
  ∀ (i : Instr) (s : State), ∃ t : State, exec i s = .next t ∧
    t.block.pending = none ∧ t.block.done = true ∧ t.block.err = s.block.err ∧
    t.inputs = s.inputs ∧ t.lastRead = s.lastRead ∧
    t.drawSource = s.drawSource ∧ t.draws = s.draws

/-- 30_encoding.md R91, the frame of every command: it writes only the registers and the hidden state of its row; the
host's parameters, DIN, ERR and IRQ_EN are written by none. -/
def Obligations.CommandFrame : Prop :=
  ∀ (i : Instr) (s t : State), exec i s = .next t →
    let b := s.block
    let b' := t.block
    (b'.irqEn = b.irqEn ∧ b'.err = b.err ∧ b'.digits = b.digits ∧ b'.interval = b.interval ∧ b'.ts = b.ts ∧
      b'.din = b.din) ∧
    (i ≠ .totpGen → b'.counter = b.counter) ∧
    (i ≠ .totpGen → i ≠ .totpTrunc → b'.trunc = b.trunc ∧ b'.code = b.code ∧ b'.codeStr = b.codeStr) ∧
    (i ≠ .shaFinal → i ≠ .hmacFinal → i ≠ .totpGen → b'.digest = b.digest) ∧
    (i = .totpTrunc → b'.ctx = b.ctx) ∧
    (i = .shaCompress ∨ i = .shaSeth → b'.ctx = { b.ctx with hash := { b.ctx.hash with h := b'.ctx.hash.h } }) ∧
    (∀ n, i = .shaUpdate n ∨ i = .hmacMsg n → b'.ctx = { b.ctx with hash := b'.ctx.hash }) ∧
    (i = .shaFinal → b'.ctx = { b.ctx with hash := b'.ctx.hash, phase := .idle } ∧
      b'.ctx.hash.len = b.ctx.hash.len) ∧
    (∀ n, i = .hmacKey n → b'.ctx.phase = b.ctx.phase) ∧
    (i = .hmacStart → b'.ctx.keylen = b.ctx.keylen)

/-- 30_encoding.md R92, last column: the phase a command leaves. -/
def Obligations.PhaseAfterCommand : Prop :=
  ∀ (i : Instr) (s t : State), exec i s = .next t →
    t.block.ctx.phase =
      match i with
      | .shaInit => .sha
      | .shaUpdate _ => s.block.ctx.phase
      | .shaFinal => .idle
      | .shaCompress => s.block.ctx.phase
      | .shaSeth => s.block.ctx.phase
      | .hmacInit => .hkey
      | .hmacKey _ => s.block.ctx.phase
      | .hmacStart => .hmsg
      | .hmacMsg _ => s.block.ctx.phase
      | .hmacFinal => .idle
      | .totpGen => .idle
      | .totpTrunc => s.block.ctx.phase

/-- The Legal set of 30_encoding.md R92 written out. -/
def phaseLegal (i : Instr) (p : Phase) : Prop :=
  match i with
  | .shaInit => True
  | .shaUpdate _ => p = .sha
  | .shaFinal => p = .sha
  | .shaCompress => p = .sha
  | .shaSeth => p = .sha
  | .hmacInit => True
  | .hmacKey _ => p = .hkey
  | .hmacStart => p = .hkey
  | .hmacMsg _ => p = .hmsg
  | .hmacFinal => p = .hmsg
  | .totpGen => p = .hkey
  | .totpTrunc => True

/-- The length check of 30_encoding.md R85 and 60_exceptions.md R205 written out. -/
def lengthLegal (i : Instr) (b : Block) : Prop :=
  ∀ n, (i = .shaUpdate n ∨ i = .hmacMsg n → b.ctx.hash.len.toNat + n.toNat ≤ 2 ^ 61 - 1) ∧
    (i = .hmacKey n → b.ctx.keylen.toNat + n.toNat ≤ 2 ^ 61 - 1)

/-- 30_encoding.md R85: a write to CMD with BUSY = 0 and ERR = 0 accepts a command that passes every check: PENDING holds
the word, DONE is cleared, nothing else changes. -/
def Obligations.CommandAccepted : Prop :=
  ∀ (v : Word) (i : Instr) (b : Block), b.pending = none → b.err = .noError → decode v = .ok i →
    phaseLegal i b.ctx.phase →
    (i = .totpGen ∨ i = .totpTrunc → 1 ≤ b.digits.toNat ∧ b.digits.toNat ≤ 9) →
    (i = .totpGen → b.interval ≠ 0) → lengthLegal i b →
    writeReg .cmd v b = { b with pending := some v, done := false }

/-- 60_exceptions.md R209 with R202 to R206 and R208: the first check that fails names the error of a write to CMD with
BUSY = 0, and only ERR and DONE change. -/
def Obligations.ErrorPriority : Prop :=
  ∀ (v : Word) (b : Block), b.pending = none →
    (b.err ≠ .noError → writeReg .cmd v b = { b with done := true }) ∧
    (∀ e, b.err = .noError → decode v = .error e →
      writeReg .cmd v b = { b with err := .illegal, done := true }) ∧
    (∀ i, b.err = .noError → decode v = .ok i → ¬ phaseLegal i b.ctx.phase →
      writeReg .cmd v b = { b with err := .sequence, done := true }) ∧
    (∀ i, b.err = .noError → decode v = .ok i → phaseLegal i b.ctx.phase → i = .totpGen ∨ i = .totpTrunc →
      b.digits.toNat = 0 ∨ 10 ≤ b.digits.toNat →
      writeReg .cmd v b = { b with err := .digits, done := true }) ∧
    (b.err = .noError → decode v = .ok .totpGen → phaseLegal .totpGen b.ctx.phase →
      1 ≤ b.digits.toNat → b.digits.toNat ≤ 9 → b.interval = 0 →
      writeReg .cmd v b = { b with err := .interval, done := true }) ∧
    (∀ i, b.err = .noError → decode v = .ok i → phaseLegal i b.ctx.phase → ¬ lengthLegal i b →
      writeReg .cmd v b = { b with err := .length, done := true })

/-- 60_exceptions.md R206: whatever the word and the state, a write to CMD with BUSY = 0 either accepts or changes no
state but ERR and DONE. -/
def Obligations.RejectionChangesNothing : Prop :=
  ∀ (v : Word) (b : Block), b.pending = none →
    writeReg .cmd v b = { b with pending := some v, done := false } ∨
    ∃ code, code ≠ .noError ∧ writeReg .cmd v b = { b with err := code, done := true }

/-- 60_exceptions.md R208, 10_state.md R32: the first error is kept: while ERR ≠ 0 a step leaves ERR as it is, unless it
is a reset or a write to CTRL with ERRCLR = 1. -/
def Obligations.FirstErrorIsKept : Prop :=
  ∀ s t : State, step s = .next t → s.block.err ≠ .noError → t.block.err ≠ s.block.err →
    t.block = Block.reset ∨
    ∃ (off : BitVec 8) (v : Word) (rest : List Input), s.inputs = .host (.write off 32 v) :: rest ∧
      regAt off = .ctrl ∧ v.getLsbD 1 = true

/-- 60_exceptions.md R207, 20_memory.md R70: while BUSY = 1 a write to CMD, CFG, INTERVAL, TS or DIN is ignored and only
ERR may change, from 0 to BUSY. -/
def Obligations.BusyWriteIgnored : Prop :=
  ∀ (b : Block) (v : Word) (r : Reg), b.pending ≠ none →
    r = .cmd ∨ r = .cfg ∨ r = .interval ∨ r = .tsLo ∨ r = .tsHi ∨ (∃ j, r = .din j) →
    (b.err = .noError → writeReg r v b = { b with err := .busy }) ∧
    (b.err ≠ .noError → writeReg r v b = b)

/-- 10_state.md R24 to R27, 60_exceptions.md R211: a write to CTRL, whatever BUSY is: SRST resets the block and the rest
is ignored; with SRST = 0, ERRCLR clears ERR and IRQ_EN is stored. -/
def Obligations.CtrlWrite : Prop :=
  ∀ (b : Block) (v : Word),
    (v.toNat % 2 = 1 → writeReg .ctrl v b = Block.reset) ∧
    (v.toNat % 2 = 0 → v.toNat / 2 % 2 = 1 →
      writeReg .ctrl v b = { b with err := .noError, irqEn := decide (v.toNat / 4 % 2 = 1) }) ∧
    (v.toNat % 2 = 0 → v.toNat / 2 % 2 = 0 →
      writeReg .ctrl v b = { b with irqEn := decide (v.toNat / 4 % 2 = 1) })

/-- 10_state.md R28, R30: a write to STATUS clears DONE when bit 1 is 1 and changes nothing else, whatever BUSY is. -/
def Obligations.StatusWrite : Prop :=
  ∀ (b : Block) (v : Word),
    (v.toNat / 2 % 2 = 1 → writeReg .status v b = { b with done := false }) ∧
    (v.toNat / 2 % 2 = 0 → writeReg .status v b = b)

/-- 10_state.md R22 to R27, R36 to R39: the RW registers hold what is written, in their defined bits. CTRL, whatever BUSY
is, reads IRQ_EN in bit 2 and 0 elsewhere, so after a write with SRST = 0 bit 2 of the written word and after a soft reset
0. With BUSY = 0 the others read the written word, CFG its low 4 bits, and the write changes no other register; the halves
of TS are written apart. -/
def Obligations.WriteReadBack : Prop :=
  ∀ (b : Block) (v : Word) (d : Draw),
    (readReg .ctrl b d = if b.irqEn then 4 else 0) ∧
    (v.toNat % 2 = 0 → (readReg .ctrl (writeReg .ctrl v b) d).toNat = 4 * (v.toNat / 4 % 2)) ∧
    (v.toNat % 2 = 1 → readReg .ctrl (writeReg .ctrl v b) d = 0) ∧
    (b.pending = none →
      (writeReg .cfg v b = { b with digits := v.setWidth 4 } ∧
        (readReg .cfg (writeReg .cfg v b) d).toNat = v.toNat % 16) ∧
      (writeReg .interval v b = { b with interval := v } ∧ readReg .interval (writeReg .interval v b) d = v) ∧
      (readReg .tsLo (writeReg .tsLo v b) d = v ∧ readReg .tsHi (writeReg .tsLo v b) d = readReg .tsHi b d ∧
        writeReg .tsLo v b = { b with ts := (writeReg .tsLo v b).ts }) ∧
      (readReg .tsHi (writeReg .tsHi v b) d = v ∧ readReg .tsLo (writeReg .tsHi v b) d = readReg .tsLo b d ∧
        writeReg .tsHi v b = { b with ts := (writeReg .tsHi v b).ts }) ∧
      (∀ j : Fin 16, readReg (.din j) (writeReg (.din j) v b) d = v ∧
        (∀ k : Fin 16, k ≠ j → readReg (.din k) (writeReg (.din j) v b) d = readReg (.din k) b d) ∧
        writeReg (.din j) v b = { b with din := (writeReg (.din j) v b).din }))

/-- 10_state.md R38: TS is `(TS_HI << 32) | TS_LO` of the two halves last written, in either order. -/
def Obligations.TimestampHalves : Prop :=
  ∀ (b : Block) (hi lo : Word), b.pending = none →
    (writeReg .tsLo lo (writeReg .tsHi hi b)).ts.toNat = hi.toNat * 2 ^ 32 + lo.toNat ∧
    (writeReg .tsHi hi (writeReg .tsLo lo b)).ts.toNat = hi.toNat * 2 ^ 32 + lo.toNat

/-- 20_memory.md R63, R70, 10_state.md R23: a write to a read-only register or a reserved offset changes nothing, whatever
BUSY is; a reserved offset reads 0, and so does CMD. -/
def Obligations.ReadOnlyIgnoresWrites : Prop :=
  ∀ (b : Block) (v : Word) (r : Reg),
    r = .counterLo ∨ r = .counterHi ∨ r = .trunc ∨ r = .code ∨ (∃ j, r = .codeStr j) ∨ r = .mlenLo ∨ r = .mlenHi ∨
      (∃ k, r = .digest k) ∨ (∃ k, r = .hstate k) ∨ r = .id ∨ r = .reserved →
    writeReg r v b = b ∧ ∀ d, readReg .reserved b d = 0 ∧ readReg .cmd b d = 0

/-! ### Registers -/

/-- 10_state.md R22: the register map: every register is at its offset, and every aligned offset the map does not name is
reserved. -/
def Obligations.RegisterMap : Prop :=
  (regAt 0x00 = .ctrl ∧ regAt 0x04 = .status ∧ regAt 0x08 = .cmd ∧ regAt 0x0C = .cfg ∧ regAt 0x10 = .interval ∧
    regAt 0x14 = .tsLo ∧ regAt 0x18 = .tsHi ∧ regAt 0x1C = .counterLo ∧ regAt 0x20 = .counterHi ∧
    regAt 0x24 = .trunc ∧ regAt 0x28 = .code ∧ regAt 0x2C = .codeStr 0 ∧ regAt 0x30 = .codeStr 1 ∧
    regAt 0x34 = .codeStr 2 ∧ regAt 0x38 = .mlenLo ∧ regAt 0x3C = .mlenHi ∧ regAt 0xC0 = .id) ∧
  (∀ j : Fin 16, regAt (BitVec.ofNat 8 (0x40 + 4 * j.val)) = .din j) ∧
  (∀ k : Fin 5, regAt (BitVec.ofNat 8 (0x80 + 4 * k.val)) = .digest k) ∧
  (∀ k : Fin 5, regAt (BitVec.ofNat 8 (0xA0 + 4 * k.val)) = .hstate k) ∧
  (∀ off : BitVec 8, off.toNat % 4 = 0 →
    (0x94 ≤ off.toNat ∧ off.toNat < 0xA0) ∨ (0xB4 ≤ off.toNat ∧ off.toNat < 0xC0) ∨ 0xC4 ≤ off.toNat →
    regAt off = .reserved)

/-- 10_state.md R28 to R34, 60_exceptions.md R200, 20_memory.md R69: the fields of a read of STATUS, ERR and PHASE by their
numbers; PHASE and BUFCNT are draws while BUSY = 1; the reserved bits read 0. -/
def Obligations.StatusLayout : Prop :=
  ∀ (b : Block) (d : Draw),
    let w := readReg .status b d
    w.getLsbD 0 = b.pending.isSome ∧ w.getLsbD 1 = b.done ∧ w.getLsbD 2 = (b.irqEn && b.done) ∧
    w.extractLsb' 4 4 = (match b.err with
      | .noError => 0
      | .illegal => 1
      | .sequence => 2
      | .digits => 3
      | .interval => 4
      | .busy => 5
      | .length => 6) ∧
    w.extractLsb' 8 2 = (if b.pending.isSome then d.phase else match b.ctx.phase with
      | .idle => 0
      | .sha => 1
      | .hkey => 2
      | .hmsg => 3) ∧
    w.extractLsb' 16 6 = (if b.pending.isSome then d.bufcnt else BitVec.ofNat 6 b.ctx.hash.bufcnt.val) ∧
    w.getLsbD 3 = false ∧ w.extractLsb' 10 6 = 0 ∧ w.extractLsb' 22 10 = 0

/-- 10_state.md R40 to R45, 20_memory.md R65: with BUSY = 0 the result registers read the results, the 64-bit ones in two
halves. -/
def Obligations.ResultRegisters : Prop :=
  ∀ (b : Block) (d : Draw), b.pending = none →
    (readReg .counterLo b d).toNat = b.counter.toNat % 2 ^ 32 ∧
    (readReg .counterHi b d).toNat = b.counter.toNat / 2 ^ 32 ∧
    (readReg .mlenLo b d).toNat = b.ctx.hash.len.toNat % 2 ^ 32 ∧
    (readReg .mlenHi b d).toNat = b.ctx.hash.len.toNat / 2 ^ 32 ∧
    readReg .trunc b d = b.trunc ∧ readReg .code b d = b.code ∧
    (∀ j : Fin 3, readReg (.codeStr j) b d = b.codeStr[j]) ∧
    (∀ k : Fin 5, readReg (.digest k) b d = b.digest[k] ∧ readReg (.hstate k) b d = b.ctx.hash.h[k]) ∧
    readReg .id b d = 0x53484131

/-- 20_memory.md R69, 70_reset_and_hazards.md R237, 10_state.md R44: while BUSY = 1 a read of a result register is a draw,
and every other register reads its current value (STATUS: StatusLayout). So no read tells the results or the context: two
busy blocks that agree on IRQ_EN, DONE, ERR and the host's own registers read alike. -/
def Obligations.BusyReadsHideResults : Prop :=
  (∀ (r : Reg) (b b' : Block) (d : Draw), b.pending ≠ none → b'.pending ≠ none →
    b.irqEn = b'.irqEn → b.done = b'.done → b.err = b'.err → b.digits = b'.digits → b.interval = b'.interval →
    b.ts = b'.ts → b.din = b'.din → readReg r b d = readReg r b' d) ∧
  (∀ (r : Reg) (b : Block) (d : Draw), b.pending ≠ none →
    r = .counterLo ∨ r = .counterHi ∨ r = .trunc ∨ r = .code ∨ (∃ j, r = .codeStr j) ∨ r = .mlenLo ∨ r = .mlenHi ∨
      (∃ k, r = .digest k) ∨ (∃ k, r = .hstate k) →
    readReg r b d = d.word) ∧
  (∀ (b : Block) (d : Draw), b.pending ≠ none →
    readReg .ctrl b d = (if b.irqEn then 4 else 0) ∧ (readReg .cfg b d).toNat = b.digits.toNat ∧
    readReg .interval b d = b.interval ∧ (readReg .tsLo b d).toNat = b.ts.toNat % 2 ^ 32 ∧
    (readReg .tsHi b d).toNat = b.ts.toNat / 2 ^ 32 ∧ (∀ j : Fin 16, readReg (.din j) b d = b.din[j]) ∧
    readReg .id b d = 0x53484131 ∧ readReg .cmd b d = 0 ∧ readReg .reserved b d = 0)

/-- 10_state.md R49, R50, 60_exceptions.md R216: KEYBUF, KEYLEN and BUF have no read view: no read tells them. -/
def Obligations.KeyIsNeverReadable : Prop :=
  ∀ (r : Reg) (b : Block) (d : Draw) (keybuf buf : Vector Byte 64) (keylen : U64),
    readReg r { b with ctx := { b.ctx with
      keybuf := keybuf, keylen := keylen, hash := { b.ctx.hash with buf := buf } } } d = readReg r b d

/-- 10_state.md R39, R43, R42: the byte views of DIN, DIGEST and CODE_STR are big-endian within each word, and the words
are `W32` of them; 00_scope.md R10: `BE64` is the 8 bytes, most significant first. -/
def Obligations.ByteViews : Prop :=
  (∀ (din : Vector Word 16) (j : Fin 16) (m : Fin 4),
    ((dinBytes din).toList.getD (4 * j.val + m.val) 0).toNat = din[j].toNat / 2 ^ (24 - 8 * m.val) % 256) ∧
  (∀ (d : Vector Word 5) (k : Fin 5) (m : Fin 4),
    ((digestBytes d).toList.getD (4 * k.val + m.val) 0).toNat = d[k].toNat / 2 ^ (24 - 8 * m.val) % 256) ∧
  (∀ (d : Vector Word 3) (k : Fin 3) (m : Fin 4),
    ((strBytes d).toList.getD (4 * k.val + m.val) 0).toNat = d[k].toNat / 2 ^ (24 - 8 * m.val) % 256) ∧
  (∀ v : U64, (be64 v).length = 8 ∧
    ∀ m : Fin 8, ((be64 v).getD m.val 0).toNat = v.toNat / 2 ^ (56 - 8 * m.val) % 256) ∧
  (∀ din : Vector Word 16, blockWords (dinBytes din) = din) ∧
  (∀ d : Vector Word 5, digestWords (digestBytes d) = d) ∧
  (∀ d : Vector Byte 20, digestBytes (digestWords d) = d) ∧
  (∀ d : Vector Byte 12, strBytes (strWords d) = d)

/-- 60_exceptions.md R212, R213: IRQ is IRQ_EN and DONE; it rises with a completion or a rejection while IRQ_EN = 1, or
when IRQ_EN is set while DONE = 1, and falls with the acceptance of a command, with a write of 1 to STATUS.DONE and with
IRQ_EN written 0. -/
def Obligations.InterruptLine : Prop :=
  ∀ (b : Block) (v : Word) (code : ErrCode),
    b.irq = (b.irqEn && b.done) ∧ (b.irqEn = true → (complete b).irq = true ∧ (raiseError code b).irq = true) ∧
    (b.done = true → v.toNat % 2 = 0 → v.toNat / 4 % 2 = 1 → (writeReg .ctrl v b).irq = true) ∧
    (accept v b).irq = false ∧ (v.toNat / 2 % 2 = 1 → (writeReg .status v b).irq = false) ∧
    (v.toNat / 4 % 2 = 0 → (writeReg .ctrl v b).irq = false)

/-! ### Reset -/

/-- 10_state.md R54, R22, 70_reset_and_hazards.md R233: what the registers read after reset, and the hidden state. -/
def Obligations.ResetValues : Prop :=
  let b := State.reset.block
  (∀ d : Draw,
    readReg .ctrl b d = 0 ∧ readReg .status b d = 0 ∧ readReg .cmd b d = 0 ∧ readReg .cfg b d = 6 ∧
    readReg .interval b d = 30 ∧ readReg .tsLo b d = 0 ∧ readReg .tsHi b d = 0 ∧ readReg .counterLo b d = 0 ∧
    readReg .counterHi b d = 0 ∧ readReg .trunc b d = 0 ∧ readReg .code b d = 0 ∧ readReg .mlenLo b d = 0 ∧
    readReg .mlenHi b d = 0 ∧ readReg .id b d = 0x53484131 ∧ readReg .reserved b d = 0 ∧
    (∀ j : Fin 3, readReg (.codeStr j) b d = 0) ∧ (∀ j : Fin 16, readReg (.din j) b d = 0) ∧
    (∀ k : Fin 5, readReg (.digest k) b d = 0) ∧ readReg (.hstate 0) b d = 0x67452301 ∧
    readReg (.hstate 1) b d = 0xEFCDAB89 ∧ readReg (.hstate 2) b d = 0x98BADCFE ∧
    readReg (.hstate 3) b d = 0x10325476 ∧ readReg (.hstate 4) b d = 0xC3D2E1F0) ∧
  b.pending = none ∧ b.err = .noError ∧ b.irqEn = false ∧ b.done = false ∧ b.ctx.phase = .idle ∧
  b.ctx.hash.bufcnt = 0 ∧ b.ctx.hash.buf = Vector.replicate 64 0 ∧ b.ctx.keybuf = Vector.replicate 64 0 ∧
  b.ctx.keylen = 0

/-- 70_reset_and_hazards.md R230, R232, R234, 10_state.md R25: the hardware reset and a write to CTRL with SRST = 1 set
every piece of the block's state to its reset value, from every state, a pending command included. -/
def Obligations.BothResets : Prop :=
  ∀ (s : State) (v : Word) (rest : List Input),
    (s.inputs = .hardReset :: rest →
      step s = .next { s with inputs := rest, block := State.reset.block }) ∧
    (s.inputs = .host (.write 0x00 32 v) :: rest → v.toNat % 2 = 1 →
      step s = .next { s with inputs := rest, block := State.reset.block })

/-! ### Whole-machine rules -/

/-- The invariants of 10_state.md R47 to R50, 41_hmac.md R144 and 42_totp.md R183 hold after reset. -/
def Obligations.InvariantAtReset : Prop := State.reset.Inv

/-- The invariants of 10_state.md R47 to R50, 41_hmac.md R144 and 42_totp.md R183, and that a pending command passes every
check in the state as it stands (20_memory.md R67), are kept by every step. -/
def Obligations.StepKeepsInvariant : Prop :=
  ∀ s t : State, s.Inv → step s = .next t → t.Inv

/-- 60_exceptions.md R210, 93_implementation_defined.md ("No behaviour of this spec is stuck"): in a state with the
invariants, a step whose input is no bus error answers a next state. -/
def Obligations.StepNeverSticks : Prop :=
  ∀ s : State, s.Inv → (∀ x, s.inputs.head? = some x → x.ok = true) → ∃ t, step s = .next t

/-- 10_state.md R39 to R43: who writes what. A step changes DIN only by a host write to a DIN register or a reset; DIGEST,
COUNTER, TRUNC, CODE and CODE_STR only by the completion of the commands that write them or a reset; the context only by a
completion or a reset; CFG, INTERVAL and TS only by a host write or a reset. -/
def Obligations.OnlyItsWritersWrite : Prop :=
  ∀ s t : State, step s = .next t →
    let b := s.block
    let b' := t.block
    let writes := fun (P : Reg → Prop) => ∃ (off : BitVec 8) (v : Word) (rest : List Input),
      s.inputs = .host (.write off 32 v) :: rest ∧ P (regAt off)
    let completes := fun (P : Instr → Prop) => ∃ (v : Word) (i : Instr),
      (s.inputs = [] ∨ ∃ rest, s.inputs = .engine :: rest) ∧ b.pending = some v ∧ decode v = .ok i ∧ P i
    b' = Block.reset ∨
    ((b'.din = b.din ∨ writes (fun r => ∃ j, r = .din j)) ∧
     (b'.digits = b.digits ∨ writes (· = .cfg)) ∧
     (b'.interval = b.interval ∨ writes (· = .interval)) ∧
     (b'.ts = b.ts ∨ writes (fun r => r = .tsLo ∨ r = .tsHi)) ∧
     (b'.irqEn = b.irqEn ∨ writes (· = .ctrl)) ∧
     (b'.digest = b.digest ∨ completes (fun i => i = .shaFinal ∨ i = .hmacFinal ∨ i = .totpGen)) ∧
     (b'.counter = b.counter ∨ completes (· = .totpGen)) ∧
     ((b'.trunc = b.trunc ∧ b'.code = b.code ∧ b'.codeStr = b.codeStr) ∨
       completes (fun i => i = .totpGen ∨ i = .totpTrunc)) ∧
     (b'.ctx = b.ctx ∨ completes (· ≠ .totpTrunc)))

/-- 20_memory.md R67, R70, R73: a command's effect does not depend on the host accesses between its acceptance and its
completion. Whatever served accesses (no soft reset) come before the engine's step, the command computes what it would
have computed at once. -/
def Obligations.EffectIgnoresInterleaving : Prop :=
  ∀ (s : State) (v : Word) (i : Instr) (before rest : List Input),
    s.block.pending = some v → decode v = .ok i → s.inputs = before ++ .engine :: rest →
    (∀ x ∈ before, x.quiet = true) →
    ∃ t u : State, Host.Core.run core (before.length + 1) s = .next t ∧ exec i s = .next u ∧
      t.inputs = rest ∧ t.block.pending = none ∧ t.block.done = true ∧ t.block.ctx = u.block.ctx ∧
      t.block.digest = u.block.digest ∧ t.block.counter = u.block.counter ∧ t.block.trunc = u.block.trunc ∧
      t.block.code = u.block.code ∧ t.block.codeStr = u.block.codeStr ∧ t.block.din = u.block.din ∧
      t.block.digits = u.block.digits ∧ t.block.interval = u.block.interval ∧ t.block.ts = u.block.ts

/-- 70_reset_and_hazards.md R244: an accepted command completes after a finite number of steps, unless a reset abandons
it. The bound, one step more than the inputs to come, is a bound of the model's schedule (log 1, DESIGN CHOICE), not of the
hardware's clock. -/
def Obligations.AcceptedCommandCompletes : Prop :=
  ∀ s : State, s.Inv → s.block.pending ≠ none → (∀ x ∈ s.inputs, x.ok = true) →
    ∃ (k : Nat) (t : State), k ≤ s.inputs.length + 1 ∧ Host.Core.run core k s = .next t ∧
      t.block.pending = none ∧ (t.block.done = true ∨ t.block = Block.reset)

/-- 20_memory.md R75, 60_exceptions.md R219: a step of one instance changes no other, and moves its own state by `step`. A
platform as a list, of which the caller names the instance to move, and the sources of the draws, which a step leaves each
instance's own, are the model's (logs 3 and 14, DESIGN CHOICE). -/
def Obligations.InstancesShareNothing : Prop :=
  ∀ (p q : Platform) (k : Nat), p.stepAt k = .next q →
    q.length = p.length ∧ (∀ j, j ≠ k → q[j]? = p[j]?) ∧
    (∀ i, p[k]? = some i → ∃ s, step i.state = .next s ∧ q[k]? = some { i with state := s }) ∧
    (p.ok = true → q.ok = true)

/-- 70_reset_and_hazards.md R242, 41_hmac.md R153: the compression counts. The counts are functions beside the step
(log 13, DESIGN CHOICE). Counted byte by byte on the buffer: bytes entering it make (BUFCNT + their number) / 64
compressions, the padding of a final 1 for BUFCNT ≤ 55 and 2 otherwise, a pad and the inner hash of 8 bytes after it 1
each, and the outer hash 2. And the table of R242, for every command. -/
def Obligations.CompressionCounts : Prop :=
  (∀ (s : List Byte) (c : HashCtx), compressionsIn s c = (c.bufcnt.val + s.length) / 64) ∧
  (∀ c : HashCtx, c.bufcnt.val = c.len.toNat % 64 →
    compressionsIn (padding c.len.toNat) c = if c.bufcnt.val ≤ 55 then 1 else 2) ∧
  (∀ (k0 : Vector Byte 64) (counter : U64) (inner : Vector Byte 20),
    let ipad := (xorAll k0 0x36).toList
    let opad := (xorAll k0 0x5C).toList
    compressionsIn ipad shaInit = 1 ∧ compressionsIn (be64 counter ++ padding 72) (absorb ipad shaInit) = 1 ∧
    compressionsIn (opad ++ inner.toList ++ padding 84) shaInit = 2) ∧
  (∀ (n : Byte) (b : Block), n.toNat ≤ 64 →
    let cnt := b.ctx.hash.bufcnt.val
    let held := b.ctx.keylen.toNat
    (compressions .shaInit b = 0 ∧ compressions .shaSeth b = 0 ∧ compressions .hmacInit b = 0 ∧
      compressions .totpTrunc b = 0 ∧ compressions .shaCompress b = 1) ∧
    compressions (.shaUpdate n) b = compressionsIn (operandBytes b n) b.ctx.hash ∧
    compressions (.shaUpdate n) b = (if 64 ≤ cnt + n.toNat then 1 else 0) ∧
    compressions (.hmacMsg n) b = (if 64 ≤ cnt + n.toNat then 1 else 0) ∧
    compressions .shaFinal b = (if cnt ≤ 55 then 1 else 2) ∧
    (held + n.toNat ≤ 64 → compressions (.hmacKey n) b = 0) ∧
    (held ≤ 64 → 64 < held + n.toNat →
      compressions (.hmacKey n) b = 1 + (if held + n.toNat = 128 then 1 else 0)) ∧
    (held ≤ 64 → 64 < held + n.toNat → cnt = 0 →
      compressions (.hmacKey n) b
        = compressionsIn (b.ctx.keybuf.toList ++ (operandBytes b n).drop (64 - held)) b.ctx.hash) ∧
    (64 < held → compressions (.hmacKey n) b = if 64 ≤ cnt + n.toNat then 1 else 0) ∧
    (held ≤ 64 → compressions .hmacStart b = 1) ∧
    (64 < held → compressions .hmacStart b = (if cnt ≤ 55 then 1 else 2) + 1) ∧
    (64 < held → cnt = held % 64 → compressions .hmacStart b = if held % 64 ≤ 55 then 2 else 3) ∧
    compressions .hmacFinal b = (if cnt ≤ 55 then 1 else 2) + 2 ∧
    compressions .totpGen b = compressions .hmacStart b + 1 + 2 ∧
    (held ≤ 64 → compressions .totpGen b = 4))
end

