-- ==== Sys2Proof/Laws/Bytes.lean ====
section
/-! SUPPORT. Byte order in numbers: a word is its four bytes, the byte views of DIN, DIGEST and CODE_STR and the words packed from them are inverse, and a 64-bit value is its two halves. -/

namespace Sys2Proof.Machine

theorem byteOf_toNat (w : Word) (m : Nat) : (byteOf w m).toNat = w.toNat / 2 ^ (24 - 8 * m) % 256 := by
  rw [byteOf, BitVec.toNat_setWidth, BitVec.toNat_ushiftRight, Nat.shiftRight_eq_div_pow]

theorem shiftLeft_toNat (b : Byte) (k : Nat) (h : k ≤ 24) :
    (b.setWidth 32 <<< k).toNat = b.toNat * 2 ^ k := by
  have lt := b.isLt
  have p : 2 ^ k ≤ 2 ^ 24 := Nat.pow_le_pow_right (by omega) h
  have q : b.toNat * 2 ^ k ≤ 255 * 2 ^ 24 := Nat.mul_le_mul (by omega) p
  rw [BitVec.toNat_shiftLeft, BitVec.toNat_setWidth, Nat.shiftLeft_eq, Nat.mod_eq_of_lt (a := b.toNat) (by omega),
    Nat.mod_eq_of_lt (by omega)]

/-- `a·2^k | b = a·2^k + b` for b below 2^k. -/
theorem mul_pow_or (a b k : Nat) (h : b < 2 ^ k) : a * 2 ^ k ||| b = a * 2 ^ k + b := by
  rw [← Nat.shiftLeft_eq, Nat.shiftLeft_add_eq_or_of_lt h]

/-- A word packed from four bytes, as a number (00_scope.md R10). -/
theorem w32_toNat (b0 b1 b2 b3 : Byte) :
    (w32 b0 b1 b2 b3).toNat
      = b0.toNat * 2 ^ 24 + b1.toNat * 2 ^ 16 + b2.toNat * 2 ^ 8 + b3.toNat := by
  have h1 := b1.isLt
  have h2 := b2.isLt
  have h3 := b3.isLt
  have z : (b3.setWidth 32).toNat = b3.toNat := by rw [BitVec.toNat_setWidth]; omega
  rw [w32, Nat.add_assoc, Nat.add_assoc]
  rw [BitVec.or_assoc, BitVec.or_assoc, BitVec.toNat_or, BitVec.toNat_or, BitVec.toNat_or, z,
    shiftLeft_toNat b0 24 (by omega), shiftLeft_toNat b1 16 (by omega), shiftLeft_toNat b2 8 (by omega),
    mul_pow_or b2.toNat b3.toNat 8 (by omega),
    mul_pow_or b1.toNat _ 16 (by omega), mul_pow_or b0.toNat _ 24 (by omega)]

/-- A word is packed from its bytes. -/
theorem w32_byteOf (w : Word) : w32 (byteOf w 0) (byteOf w 1) (byteOf w 2) (byteOf w 3) = w := by
  have := w.isLt
  apply BitVec.eq_of_toNat_eq
  simp only [w32_toNat, byteOf_toNat]
  omega

theorem byteOf_w32_0 (b0 b1 b2 b3 : Byte) : byteOf (w32 b0 b1 b2 b3) 0 = b0 := by
  have := b0.isLt; have := b1.isLt; have := b2.isLt; have := b3.isLt
  apply BitVec.eq_of_toNat_eq; rw [byteOf_toNat, w32_toNat]; omega

theorem byteOf_w32_1 (b0 b1 b2 b3 : Byte) : byteOf (w32 b0 b1 b2 b3) 1 = b1 := by
  have := b0.isLt; have := b1.isLt; have := b2.isLt; have := b3.isLt
  apply BitVec.eq_of_toNat_eq; rw [byteOf_toNat, w32_toNat]; omega

theorem byteOf_w32_2 (b0 b1 b2 b3 : Byte) : byteOf (w32 b0 b1 b2 b3) 2 = b2 := by
  have := b0.isLt; have := b1.isLt; have := b2.isLt; have := b3.isLt
  apply BitVec.eq_of_toNat_eq; rw [byteOf_toNat, w32_toNat]; omega

theorem byteOf_w32_3 (b0 b1 b2 b3 : Byte) : byteOf (w32 b0 b1 b2 b3) 3 = b3 := by
  have := b0.isLt; have := b1.isLt; have := b2.isLt; have := b3.isLt
  apply BitVec.eq_of_toNat_eq; rw [byteOf_toNat, w32_toNat]; omega

/-! ### The views -/

theorem dinBytes_getElem (din : Vector Word 16) (k : Nat) (hk : k < 64) :
    (dinBytes din)[k] = byteOf (din[k / 4]'(by omega)) (k % 4) := by
  unfold dinBytes; rw [Vector.getElem_ofFn]

theorem digestBytes_getElem (d : Vector Word 5) (k : Nat) (hk : k < 20) :
    (digestBytes d)[k] = byteOf (d[k / 4]'(by omega)) (k % 4) := by
  unfold digestBytes; rw [Vector.getElem_ofFn]

theorem strBytes_getElem (s : Vector Word 3) (k : Nat) (hk : k < 12) :
    (strBytes s)[k] = byteOf (s[k / 4]'(by omega)) (k % 4) := by
  unfold strBytes; rw [Vector.getElem_ofFn]

/-- A word of a byte view whose bytes are those of the words `ws`, most significant first. -/
theorem w32At_of_bytes {n m : Nat} (s : Vector Byte n) (ws : Vector Word m) (t : Nat) (ht : t < m)
    (h : 4 * t + 3 < n)
    (bytes : ∀ k (_ : k < 4), s[4 * t + k] = byteOf ws[t] k) : w32At s (4 * t) h = ws[t] := by
  unfold w32At
  have b0 := bytes 0 (by omega)
  simp only [Nat.add_zero] at b0
  rw [b0, bytes 1 (by omega), bytes 2 (by omega), bytes 3 (by omega), w32_byteOf]

/-- The words of a digest's bytes are the digest's words (10_state.md R43). -/
theorem digestWords_digestBytes (d : Vector Word 5) : digestWords (digestBytes d) = d := by
  have w : ∀ t (ht : t < 5), w32At (digestBytes d) (4 * t) = d[t] := fun t ht =>
    w32At_of_bytes _ _ t ht _ fun k hk => by
      rw [digestBytes_getElem]; simp only [show (4 * t + k) / 4 = t by omega, show (4 * t + k) % 4 = k by omega]
  apply Vector.ext
  intro k hk
  unfold digestWords
  match k, hk with
  | 0, _ => exact w 0 (by omega)
  | 1, _ => exact w 1 (by omega)
  | 2, _ => exact w 2 (by omega)
  | 3, _ => exact w 3 (by omega)
  | 4, _ => exact w 4 (by omega)

/-- DIN is the words of its byte view (10_state.md R39). -/
theorem blockWords_dinBytes (din : Vector Word 16) : blockWords (dinBytes din) = din := by
  apply Vector.ext
  intro t ht
  unfold blockWords
  rw [Vector.getElem_ofFn]
  exact w32At_of_bytes _ _ t ht _ fun k hk => by
    rw [dinBytes_getElem]; simp only [show (4 * t + k) / 4 = t by omega, show (4 * t + k) % 4 = k by omega]

/-- Byte m of the word at byte i of a byte string is byte i + m of it. -/
theorem byteOf_w32At {n : Nat} (s : Vector Byte n) (i m : Nat) (h : i + 3 < n) (hm : m < 4) :
    byteOf (w32At s i h) m = s[i + m] := by
  unfold w32At
  match m, hm with
  | 0, _ => exact byteOf_w32_0 _ _ _ _
  | 1, _ => exact byteOf_w32_1 _ _ _ _
  | 2, _ => exact byteOf_w32_2 _ _ _ _
  | 3, _ => exact byteOf_w32_3 _ _ _ _

theorem strWords_getElem (s : Vector Byte 12) (t : Nat) (ht : t < 3) : (strWords s)[t] = w32At s (4 * t) := by
  unfold strWords
  match t, ht with
  | 0, _ => rfl
  | 1, _ => rfl
  | 2, _ => rfl

theorem digestWords_getElem (s : Vector Byte 20) (t : Nat) (ht : t < 5) : (digestWords s)[t] = w32At s (4 * t) := by
  unfold digestWords
  match t, ht with
  | 0, _ => rfl
  | 1, _ => rfl
  | 2, _ => rfl
  | 3, _ => rfl
  | 4, _ => rfl

/-- The bytes of CODE_STR are the characters packed into it (10_state.md R42). -/
theorem strBytes_strWords (s : Vector Byte 12) : strBytes (strWords s) = s := by
  apply Vector.ext
  intro k hk
  rw [strBytes_getElem, strWords_getElem, byteOf_w32At _ _ _ _ (by omega)]
  simp only [show 4 * (k / 4) + k % 4 = k by omega]

/-- The bytes of DIGEST are the digest packed into it (10_state.md R43). -/
theorem digestBytes_digestWords (s : Vector Byte 20) : digestBytes (digestWords s) = s := by
  apply Vector.ext
  intro k hk
  rw [digestBytes_getElem, digestWords_getElem, byteOf_w32At _ _ _ _ (by omega)]
  simp only [show 4 * (k / 4) + k % 4 = k by omega]

/-! ### 64-bit values -/

theorem lo32_toNat (v : U64) : (lo32 v).toNat = v.toNat % 2 ^ 32 := by rw [lo32, BitVec.toNat_setWidth]

theorem hi32_toNat (v : U64) : (hi32 v).toNat = v.toNat / 2 ^ 32 := by
  have := v.isLt
  rw [hi32, BitVec.toNat_setWidth, BitVec.toNat_ushiftRight, Nat.shiftRight_eq_div_pow]
  omega

theorem join64_toNat (hi lo : Word) : (join64 hi lo).toNat = hi.toNat * 2 ^ 32 + lo.toNat := by
  have h := hi.isLt
  have l := lo.isLt
  rw [join64, BitVec.toNat_or, BitVec.toNat_shiftLeft, BitVec.toNat_setWidth, BitVec.toNat_setWidth,
    Nat.shiftLeft_eq, Nat.mod_eq_of_lt (a := lo.toNat) (by omega), Nat.mod_eq_of_lt (a := hi.toNat) (by omega),
    Nat.mod_eq_of_lt (by omega), mul_pow_or _ _ 32 (by omega)]

@[simp] theorem lo32_join64 (hi lo : Word) : lo32 (join64 hi lo) = lo := by
  have := lo.isLt
  apply BitVec.eq_of_toNat_eq; rw [lo32_toNat, join64_toNat]; omega

@[simp] theorem hi32_join64 (hi lo : Word) : hi32 (join64 hi lo) = hi := by
  have := lo.isLt; have := hi.isLt
  apply BitVec.eq_of_toNat_eq; rw [hi32_toNat, join64_toNat]; omega

/-! ### Operand bytes -/

@[simp] theorem operandBytes_length (b : Block) (n : Byte) : (operandBytes b n).length = min n.toNat 64 := by
  simp [operandBytes]

theorem operandBytes_getD (b : Block) (n : Byte) (k : Nat) (h : k < n.toNat) (h' : k < 64) :
    (operandBytes b n).getD k 0 = (dinBytes b.din)[k] := by
  rw [operandBytes, List.getD_eq_getElem _ _ (by simp; omega), List.getElem_take, Vector.getElem_toList]

end Sys2Proof.Machine
end

