-- ==== Sys2Proof/Laws/Encoding.lean ====
section
/-! SUPPORT. The fields of a command word as numbers, the word of a command as a number, and what the decoder's cases are. -/

namespace Sys2Proof

theorem opcField_toNat (v : Word) : (opcField v).toNat = v.toNat % 256 := by
  rw [opcField, BitVec.extractLsb'_toNat, Nat.shiftRight_zero]

theorem countField_toNat (v : Word) : (countField v).toNat = v.toNat / 256 % 256 := by
  rw [countField, BitVec.extractLsb'_toNat, Nat.shiftRight_eq_div_pow]

theorem rsvField_toNat (v : Word) : (rsvField v).toNat = v.toNat / 65536 := by
  have := v.isLt
  rw [rsvField, BitVec.extractLsb'_toNat, Nat.shiftRight_eq_div_pow]
  omega

/-- A word is its three fields (30_encoding.md R80). -/
theorem word_eq_fields (v : Word) :
    v.toNat = 65536 * (rsvField v).toNat + 256 * (countField v).toNat + (opcField v).toNat := by
  rw [opcField_toNat, countField_toNat, rsvField_toNat]; omega

/-- The word of a command is `opc + 256·N` (30_encoding.md R84). -/
theorem encode_toNat (i : Instr) : (encode i).toNat = i.opcode.toNat + 256 * i.count.toNat := by
  have a := i.opcode.isLt
  have b := i.count.isLt
  rw [encode, BitVec.toNat_or, BitVec.toNat_shiftLeft, BitVec.toNat_setWidth, BitVec.toNat_setWidth, Nat.or_comm,
    Nat.mod_eq_of_lt (a := i.count.toNat) (by omega), Nat.mod_eq_of_lt (a := i.opcode.toNat) (by omega),
    Nat.mod_eq_of_lt (by rw [Nat.shiftLeft_eq]; omega), ← Nat.shiftLeft_add_eq_or_of_lt (by omega), Nat.shiftLeft_eq]
  omega

/-- The row of an opcode carries that opcode, and the count if the format has one. -/
theorem tableRow_fields {opc n : Byte} {i : Instr} (h : tableRow opc n = some i) :
    i.opcode = opc ∧ (i.isNFormat = true → i.count = n) ∧ (i.isNFormat = false → i.count = 0) := by
  unfold tableRow at h
  split at h <;> first | simp only [reduceCtorEq] at h | skip
  all_goals
    obtain rfl := Option.some.inj h
    refine ⟨BitVec.eq_of_toNat_eq (by rw [‹opc.toNat = _›]; rfl), ?_, ?_⟩ <;> simp [Instr.isNFormat, Instr.count]

/-- A command is found again in its row. -/
theorem tableRow_opcode (i : Instr) : tableRow i.opcode i.count = some i := by cases i <;> rfl

/-- A command with a zero or an N-format count is well formed when its count is in range. -/
theorem wf_iff (i : Instr) : i.WellFormed ↔ (i.isNFormat = true → i.count.toNat ≤ maxCount) := by
  cases i <;> simp [Instr.WellFormed, Instr.wf, Instr.isNFormat, Instr.count]

theorem decode_reservedBits {v : Word} (h : 65536 ≤ v.toNat) : decode v = .error .reservedBits := by
  have : rsvField v ≠ 0 := by
    intro e
    have := rsvField_toNat v
    rw [e, show (0 : BitVec 16).toNat = 0 from rfl] at this
    omega
  rw [decode, if_pos this]

/-- Decoding a word with no reserved bit set looks at its row only. -/
theorem decode_of_small {v : Word} (h : v.toNat < 65536) :
    decode v =
      match tableRow (opcField v) (countField v) with
      | none => .error .reservedOpcode
      | some i =>
        if i.isNFormat then if maxCount < (countField v).toNat then .error .countTooLarge else .ok i
        else if countField v ≠ 0 then .error .countNotZero else .ok i := by
  have : rsvField v = 0 := BitVec.eq_of_toNat_eq (by
    rw [rsvField_toNat, show (0 : BitVec 16).toNat = 0 from rfl]; omega)
  exact if_neg (fun h => h this)

end Sys2Proof
end

