-- ==== Sys2Proof/Laws/Hash.lean ====
section
/-! SUPPORT. The streaming hash: what bytes entering the buffer do, in closed form, and what the context holds of the message absorbed so far. -/

namespace Sys2Proof.Machine

/-- The bytes of `s` entering the buffer one by one, LEN not counting them (40_sha1.md R110). -/
def padBytes (s : List Byte) (c : HashCtx) : HashCtx := s.foldl (fun c x => padByte x c) c

@[simp] theorem padBytes_nil (c : HashCtx) : padBytes [] c = c := rfl

@[simp] theorem padBytes_cons (x : Byte) (s : List Byte) (c : HashCtx) :
    padBytes (x :: s) c = padBytes s (padByte x c) := rfl

theorem padBytes_append (s t : List Byte) (c : HashCtx) : padBytes (s ++ t) c = padBytes t (padBytes s c) := by
  simp [padBytes, List.foldl_append]

@[simp] theorem absorb_nil (c : HashCtx) : absorb [] c = c := by unfold absorb; rfl

@[simp] theorem absorb_cons (x : Byte) (s : List Byte) (c : HashCtx) :
    absorb (x :: s) c = absorb s (absorbByte x c) := by unfold absorb; rfl

theorem absorb_append (s t : List Byte) (c : HashCtx) : absorb (s ++ t) c = absorb t (absorb s c) := by
  simp [absorb, List.foldl_append]

/-- While the buffer does not fill, a byte is stored and counted. -/
theorem padByte_of_room (x : Byte) (c : HashCtx) (room : c.bufcnt.val + 1 < 64) :
    padByte x c
      = { c with buf := c.buf.set c.bufcnt.val x c.bufcnt.isLt, bufcnt := ⟨c.bufcnt.val + 1, room⟩ } := by
  simp [padByte, room]

/-- The 64th byte makes one compression and empties the buffer. -/
theorem padByte_of_full (x : Byte) (c : HashCtx) (full : c.bufcnt.val = 63) :
    padByte x c
      = { c with
          h := compress c.h (c.buf.set c.bufcnt.val x c.bufcnt.isLt)
          buf := c.buf.set c.bufcnt.val x c.bufcnt.isLt
          bufcnt := 0 } := by
  simp [padByte, full]

@[simp] theorem padByte_len (x : Byte) (c : HashCtx) : (padByte x c).len = c.len := by
  unfold padByte; dsimp only; split <;> rfl

theorem padByte_bufcnt (x : Byte) (c : HashCtx) : (padByte x c).bufcnt.val = (c.bufcnt.val + 1) % 64 := by
  have := c.bufcnt.isLt
  by_cases room : c.bufcnt.val + 1 < 64
  · rw [padByte_of_room x c room]; simp only; omega
  · rw [padByte_of_full x c (by omega)]; simp only [Fin.val_zero]; omega

/-- The step of `padByte` does not look at LEN. -/
theorem padByte_with_len (x : Byte) (c : HashCtx) (l : U64) :
    padByte x { c with len := l } = { padByte x c with len := l } := by
  unfold padByte; dsimp only; split <;> rfl

theorem padBytes_with_len (s : List Byte) (c : HashCtx) (l : U64) :
    padBytes s { c with len := l } = { padBytes s c with len := l } := by
  induction s generalizing c with
  | nil => rfl
  | cons x s ih => rw [padBytes_cons, padBytes_cons, padByte_with_len, ih]

@[simp] theorem padBytes_len (s : List Byte) (c : HashCtx) : (padBytes s c).len = c.len := by
  induction s generalizing c with
  | nil => rfl
  | cons x s ih => rw [padBytes_cons, ih, padByte_len]

theorem padBytes_bufcnt (s : List Byte) (c : HashCtx) :
    (padBytes s c).bufcnt.val = (c.bufcnt.val + s.length) % 64 := by
  induction s generalizing c with
  | nil => have := c.bufcnt.isLt; simp only [padBytes_nil, List.length_nil]; omega
  | cons x s ih => rw [padBytes_cons, ih, padByte_bufcnt, List.length_cons]; omega

/-- `absorb` is `padBytes` with LEN counting the bytes. -/
theorem absorb_eq_padBytes (s : List Byte) (c : HashCtx) :
    absorb s c = { padBytes s c with len := c.len + BitVec.ofNat 64 s.length } := by
  induction s generalizing c with
  | nil => simp
  | cons x s ih =>
    rw [absorb_cons, ih, absorbByte, padBytes_with_len, padBytes_cons]
    have sum : c.len + 1 + BitVec.ofNat 64 s.length = c.len + BitVec.ofNat 64 (x :: s).length := by
      rw [List.length_cons, BitVec.ofNat_add, BitVec.add_assoc, BitVec.add_comm (BitVec.ofNat 64 s.length)]
      rfl
    simp only [sum]

theorem absorb_len (s : List Byte) (c : HashCtx) : (absorb s c).len = c.len + BitVec.ofNat 64 s.length := by
  rw [absorb_eq_padBytes]

theorem absorb_bufcnt (s : List Byte) (c : HashCtx) :
    (absorb s c).bufcnt.val = (c.bufcnt.val + s.length) % 64 := by
  rw [absorb_eq_padBytes]; exact padBytes_bufcnt s c

/-- `s` written into the buffer from byte `off` on. -/
def overwrite (b : Vector Byte 64) (off : Nat) (s : List Byte) : Vector Byte 64 :=
  Vector.ofFn fun k : Fin 64 => if off ≤ k.val ∧ k.val < off + s.length then s.getD (k.val - off) 0 else b[k]

theorem overwrite_getElem (b : Vector Byte 64) (off : Nat) (s : List Byte) (k : Nat) (hk : k < 64) :
    (overwrite b off s)[k]
      = if off ≤ k ∧ k < off + s.length then s.getD (k - off) 0 else b[k] := by
  unfold overwrite; rw [Vector.getElem_ofFn]; rfl

theorem overwrite_nil (b : Vector Byte 64) (off : Nat) : overwrite b off [] = b := by
  apply Vector.ext
  intro k hk
  rw [overwrite_getElem, if_neg (by rw [List.length_nil]; omega)]

theorem overwrite_cons (b : Vector Byte 64) (off : Nat) (h : off < 64) (x : Byte) (s : List Byte) :
    overwrite b off (x :: s) = overwrite (b.set off x h) (off + 1) s := by
  apply Vector.ext
  intro k hk
  rw [overwrite_getElem, overwrite_getElem, List.length_cons, Vector.getElem_set]
  by_cases h1 : off = k
  · subst h1
    rw [if_pos (by omega), if_neg (by omega), if_pos rfl, Nat.sub_self]
    rfl
  · by_cases h2 : off + 1 ≤ k ∧ k < off + 1 + s.length
    · rw [if_pos (by omega), if_pos h2]
      obtain ⟨j, rfl⟩ : ∃ j, k = off + 1 + j := ⟨k - (off + 1), by omega⟩
      rw [show off + 1 + j - off = j + 1 by omega, show off + 1 + j - (off + 1) = j by omega]
      rfl
    · rw [if_neg (by omega), if_neg h2, if_neg h1]

/-- Bytes that do not fill the buffer. -/
theorem padBytes_of_room (s : List Byte) (c : HashCtx) (room : c.bufcnt.val + s.length < 64) :
    padBytes s c
      = { c with buf := overwrite c.buf c.bufcnt.val s, bufcnt := ⟨c.bufcnt.val + s.length, room⟩ } := by
  induction s generalizing c with
  | nil => simp [overwrite_nil]
  | cons x s ih =>
    simp only [List.length_cons] at room
    have r : c.bufcnt.val + 1 < 64 := by omega
    rw [padBytes_cons, padByte_of_room x c r, ih _ (by simp only; omega), overwrite_cons _ _ c.bufcnt.isLt]
    simp only [HashCtx.mk.injEq, true_and, and_true, Fin.mk.injEq, List.length_cons]
    omega

/-- Bytes that fill the buffer: the first 64 − BUFCNT of them complete the block, which is compressed. -/
theorem padBytes_of_fill (s : List Byte) (c : HashCtx) (fill : 64 ≤ c.bufcnt.val + s.length) :
    padBytes s c
      = padBytes (s.drop (64 - c.bufcnt.val))
          { c with
            h := compress c.h (overwrite c.buf c.bufcnt.val (s.take (64 - c.bufcnt.val)))
            buf := overwrite c.buf c.bufcnt.val (s.take (64 - c.bufcnt.val))
            bufcnt := 0 } := by
  induction s generalizing c with
  | nil => have := c.bufcnt.isLt; simp only [List.length_nil] at fill; omega
  | cons x s ih =>
    have lt := c.bufcnt.isLt
    simp only [List.length_cons] at fill
    rw [padBytes_cons]
    by_cases r : c.bufcnt.val + 1 < 64
    · rw [padByte_of_room x c r, ih _ (by simp only; omega)]
      simp only
      rw [show 64 - c.bufcnt.val = (64 - (c.bufcnt.val + 1)) + 1 by omega, List.drop_succ_cons,
        List.take_succ_cons, overwrite_cons _ _ lt]
    · have full : c.bufcnt.val = 63 := by omega
      rw [padByte_of_full x c full, show 64 - c.bufcnt.val = 0 + 1 by omega, List.drop_succ_cons,
        List.take_succ_cons, List.drop_zero, List.take_zero, overwrite_cons _ _ lt, overwrite_nil]

/-! ### The padding -/

theorem padZeros_eq_padBytes (k : Nat) (c : HashCtx) : padZeros k c = padBytes (List.replicate k 0) c := by
  induction k generalizing c with
  | zero => rw [padZeros]; rfl
  | succ k ih => rw [padZeros, ih, List.replicate_succ, padBytes_cons]

/-- The bytes `shaFinal` adds (40_sha1.md R110), by BUFCNT and LEN. -/
def finalBytes (c : HashCtx) : List Byte :=
  0x80 :: (List.replicate ((119 - c.bufcnt.val) % 64) 0 ++ be64 (c.len * 8))

@[simp] theorem be64_length (v : U64) : (be64 v).length = 8 := rfl

theorem finalBytes_length (c : HashCtx) : (finalBytes c).length = (119 - c.bufcnt.val) % 64 + 9 := by
  simp [finalBytes]

theorem shaFinal_eq_padBytes (c : HashCtx) : shaFinal c = padBytes (finalBytes c) c := by
  have lt := c.bufcnt.isLt
  have cnt : (padByte 0x80 c).bufcnt.val = (c.bufcnt.val + 1) % 64 := padByte_bufcnt _ _
  rw [shaFinal, finalBytes, padBytes_cons, padBytes_append]
  simp only [padZeros_eq_padBytes]
  show padBytes _ _ = _
  congr 1
  split
  case isTrue more =>
    have zero : (padBytes (List.replicate (64 - (padByte 0x80 c).bufcnt.val) 0) (padByte 0x80 c)).bufcnt.val = 0 := by
      rw [padBytes_bufcnt, List.length_replicate]; omega
    rw [zero, ← padBytes_append, ← List.replicate_add]
    congr 2
    omega
  case isFalse no =>
    congr 2
    omega

@[simp] theorem shaFinal_len (c : HashCtx) : (shaFinal c).len = c.len := by rw [shaFinal_eq_padBytes, padBytes_len]

theorem shaFinal_bufcnt (c : HashCtx) : (shaFinal c).bufcnt = 0 := by
  apply Fin.ext
  rw [shaFinal_eq_padBytes, padBytes_bufcnt, finalBytes_length]
  have := c.bufcnt.isLt
  simp only [Fin.val_zero]
  omega

/-! ### What the context holds of a message -/

/-- The context `c` holds the message `m`: its whole blocks are in H, its last bytes in BUF. -/
structure Holds (m : List Byte) (c : HashCtx) : Prop where
  h      : c.h = chainBlocks m (m.length / 64)
  bufcnt : c.bufcnt.val = m.length % 64
  buf    : ∀ (k : Nat) (lt : k < m.length % 64), c.buf[k]'(by omega) = m.getD (64 * (m.length / 64) + k) 0

theorem holds_shaInit : Holds [] shaInit :=
  { h := rfl, bufcnt := rfl, buf := fun k lt => absurd lt (Nat.not_lt_zero k) }

@[simp] theorem chainBlocks_zero (m : List Byte) : chainBlocks m 0 = sha1IV := rfl

theorem chainBlocks_succ (m : List Byte) (n : Nat) :
    chainBlocks m (n + 1) = compress (chainBlocks m n) (blockAt m n) := by
  simp [chainBlocks, List.range_succ]

theorem blockAt_getElem (m : List Byte) (n k : Nat) (hk : k < 64) : (blockAt m n)[k] = m.getD (64 * n + k) 0 := by
  unfold blockAt; rw [Vector.getElem_ofFn]

/-- The blocks of a byte string do not depend on what follows them. -/
theorem chainBlocks_append (m s : List Byte) (n : Nat) (le : 64 * n ≤ m.length) :
    chainBlocks (m ++ s) n = chainBlocks m n := by
  induction n with
  | zero => rw [chainBlocks_zero, chainBlocks_zero]
  | succ n ih =>
    have same : blockAt (m ++ s) n = blockAt m n := by
      apply Vector.ext
      intro k hk
      rw [blockAt_getElem, blockAt_getElem, List.getD_append _ _ _ _ (by omega)]
    rw [chainBlocks_succ, chainBlocks_succ, ih (by omega), same]

theorem Holds.padByte {m : List Byte} {c : HashCtx} (hold : Holds m c) (x : Byte) :
    Holds (m ++ [x]) (Machine.padByte x c) := by
  obtain ⟨hh, hc, hb⟩ := hold
  have lt := c.bufcnt.isLt
  have len : (m ++ [x]).length = m.length + 1 := by simp
  have stored : ∀ (k : Nat) (hk : k < 64), k ≤ c.bufcnt.val →
      (c.buf.set c.bufcnt.val x c.bufcnt.isLt)[k] = (m ++ [x]).getD (64 * (m.length / 64) + k) 0 := by
    intro k hk le
    rw [Vector.getElem_set]
    by_cases e : c.bufcnt.val = k
    · rw [if_pos e, List.getD_append_right _ _ _ _ (by omega), show 64 * (m.length / 64) + k - m.length = 0 by omega]
      rfl
    · rw [if_neg e, hb k (by omega), List.getD_append _ _ _ _ (by omega)]
  by_cases room : c.bufcnt.val + 1 < 64
  · rw [padByte_of_room x c room]
    have q : (m ++ [x]).length / 64 = m.length / 64 := by omega
    refine ⟨?_, ?_, ?_⟩
    · rw [q, chainBlocks_append _ _ _ (by omega)]; exact hh
    · simp only; omega
    · intro k hk
      rw [q]
      exact stored k (by omega) (by omega)
  · have full : c.bufcnt.val = 63 := by omega
    rw [padByte_of_full x c full]
    have q : (m ++ [x]).length / 64 = m.length / 64 + 1 := by omega
    refine ⟨?_, ?_, ?_⟩
    · simp only
      have block : c.buf.set c.bufcnt.val x c.bufcnt.isLt = blockAt (m ++ [x]) (m.length / 64) := by
        apply Vector.ext
        intro k hk
        rw [stored k hk (by omega), blockAt_getElem]
      rw [q, chainBlocks_succ, chainBlocks_append _ _ _ (by omega), hh, block]
    · simp only [Fin.val_zero]; omega
    · intro k hk; omega

theorem Holds.padBytes {m : List Byte} {c : HashCtx} (hold : Holds m c) (s : List Byte) :
    Holds (m ++ s) (Machine.padBytes s c) := by
  induction s generalizing m c with
  | nil => simpa using hold
  | cons x s ih => simpa using ih (hold.padByte x)

theorem Holds.with_len {m : List Byte} {c : HashCtx} (hold : Holds m c) (l : U64) : Holds m { c with len := l } :=
  ⟨hold.h, hold.bufcnt, hold.buf⟩

theorem Holds.absorb {m : List Byte} {c : HashCtx} (hold : Holds m c) (s : List Byte) :
    Holds (m ++ s) (Machine.absorb s c) := by
  rw [absorb_eq_padBytes]
  exact (hold.padBytes s).with_len _

/-- A context that holds `m` and counts its bytes finishes with SHA-1 of `m`. -/
theorem Holds.shaFinal_h {m : List Byte} {c : HashCtx} (hold : Holds m c)
    (len : c.len = BitVec.ofNat 64 m.length) : (shaFinal c).h = sha1Words m := by
  have bytes : finalBytes c = padding m.length := by
    have l8 : c.len * 8 = BitVec.ofNat 64 (8 * m.length) := by
      rw [len, Nat.mul_comm, BitVec.ofNat_mul]; rfl
    rw [finalBytes, padding, hold.bufcnt, l8]
  rw [shaFinal_eq_padBytes, bytes, (hold.padBytes _).h, sha1Words]

/-- Bytes absorbed into a fresh context. -/
theorem holds_absorb_init (m : List Byte) :
    Holds m (absorb m shaInit) ∧ (absorb m shaInit).len = BitVec.ofNat 64 m.length := by
  have := holds_shaInit.absorb m
  rw [List.nil_append] at this
  exact ⟨this, by rw [absorb_len]; simp [shaInit]⟩

/-- The hash of bytes absorbed into a fresh context is SHA-1 of them (40_sha1.md R112). -/
theorem shaFinal_absorb_init (m : List Byte) : (shaFinal (absorb m shaInit)).h = sha1Words m :=
  (holds_absorb_init m).1.shaFinal_h (holds_absorb_init m).2

/-- Absorbing pieces one after another is absorbing them joined. -/
theorem foldl_absorb (ps : List (List Byte)) (c : HashCtx) :
    ps.foldl (fun c s => absorb s c) c = absorb ps.flatten c := by
  induction ps generalizing c with
  | nil => simp
  | cons p ps ih => rw [List.foldl_cons, ih, List.flatten_cons, absorb_append]

/-! ### Whole blocks and the padding -/

/-- One whole block absorbed into a fresh context is one compression from the IV. -/
theorem absorb_block (b : Vector Byte 64) :
    absorb b.toList shaInit = { h := compress sha1IV b, buf := b, bufcnt := 0, len := 64 } := by
  have all : overwrite zeros64 0 b.toList = b := by
    apply Vector.ext
    intro k hk
    rw [overwrite_getElem, if_pos (by simp; omega), Nat.sub_zero, List.getD_eq_getElem _ _ (by simp; omega),
      Vector.getElem_toList]
  rw [absorb_eq_padBytes, padBytes_of_fill _ _ (by simp)]
  simp only [shaInit, Fin.val_zero, Nat.sub_zero]
  rw [List.drop_of_length_le (by simp), List.take_of_length_le (by simp), padBytes_nil, all]
  simp

/-- A message whose last block has room for its padding finishes in one compression (40_sha1.md R110). -/
theorem shaFinal_h_of_short (c : HashCtx) (le : c.bufcnt.val ≤ 55) :
    (shaFinal c).h = compress c.h (Vector.ofFn fun k : Fin 64 =>
      if k.val < c.bufcnt.val then c.buf[k] else if k.val = c.bufcnt.val then 0x80
      else if k.val < 56 then 0 else (be64 (c.len * 8)).getD (k.val - 56) 0) := by
  rw [shaFinal_eq_padBytes, padBytes_of_fill _ _ (by rw [finalBytes_length]; omega)]
  rw [List.drop_of_length_le (by rw [finalBytes_length]; omega), padBytes_nil]
  rw [List.take_of_length_le (by rw [finalBytes_length]; omega)]
  show compress _ _ = compress _ _
  refine congrArg (compress _) (Vector.ext ?_)
  intro k hk
  rw [overwrite_getElem, Vector.getElem_ofFn, finalBytes_length]
  simp only
  by_cases h : k < c.bufcnt.val
  · rw [if_neg (by omega), if_pos h]; rfl
  · rw [if_pos (by omega), if_neg h]
    unfold finalBytes
    by_cases e : k = c.bufcnt.val
    · rw [if_pos e, e, Nat.sub_self]; rfl
    · rw [if_neg e, show k - c.bufcnt.val = (k - c.bufcnt.val - 1) + 1 by omega, List.getD_cons_succ]
      by_cases z : k < 56
      · rw [if_pos z, List.getD_append _ _ _ _ (by simp; omega), List.getD_replicate _ (by omega)]
      · rw [if_neg z, List.getD_append_right _ _ _ _ (by simp; omega)]
        exact congrArg (fun n => (be64 (c.len * 8)).getD n 0) (by simp; omega)

end Sys2Proof.Machine
end

