-- ==== Sys2Proof/Laws/Key.lean ====
section
/-! SUPPORT. The HMAC primitives: what key bytes do, in closed form; what the context holds of a key; and what `hmacStart` and `hmacFinal` compute. -/

namespace Sys2Proof.Machine

@[simp] theorem keyBytes_nil (c : Context) : keyBytes [] c = c := by unfold keyBytes; rfl

@[simp] theorem keyBytes_cons (x : Byte) (s : List Byte) (c : Context) :
    keyBytes (x :: s) c = keyBytes s (keyByte x c) := by unfold keyBytes; rfl

theorem keyBytes_append (s t : List Byte) (c : Context) : keyBytes (s ++ t) c = keyBytes t (keyBytes s c) := by
  simp [keyBytes, List.foldl_append]

theorem keyByte_of_room (x : Byte) (c : Context) (room : c.keylen.toNat < 64) :
    keyByte x c = { c with keybuf := c.keybuf.set c.keylen.toNat x room, keylen := c.keylen + 1 } := by
  rw [keyByte, dif_pos room]

/-- The 65th key byte (41_hmac.md R144). -/
theorem keyByte_of_full (x : Byte) (c : Context) (full : c.keylen.toNat = 64) :
    keyByte x c
      = { c with hash := absorbByte x (absorb c.keybuf.toList c.hash), keylen := c.keylen + 1 } := by
  rw [keyByte, dif_neg (by omega), if_pos full]

theorem keyByte_of_hashed (x : Byte) (c : Context) (more : 64 < c.keylen.toNat) :
    keyByte x c = { c with hash := absorbByte x c.hash, keylen := c.keylen + 1 } := by
  rw [keyByte, dif_neg (by omega), if_neg (by omega)]

@[simp] theorem keyByte_phase (x : Byte) (c : Context) : (keyByte x c).phase = c.phase := by
  unfold keyByte; split <;> rfl

@[simp] theorem keyByte_keylen (x : Byte) (c : Context) : (keyByte x c).keylen = c.keylen + 1 := by
  unfold keyByte; split <;> rfl

@[simp] theorem keyBytes_phase (s : List Byte) (c : Context) : (keyBytes s c).phase = c.phase := by
  induction s generalizing c with
  | nil => rw [keyBytes_nil]
  | cons x s ih => rw [keyBytes_cons, ih, keyByte_phase]

/-- One byte more and then `n` more are `n + 1` more. -/
theorem add_one_add_ofNat (a : U64) (n : Nat) : a + 1 + BitVec.ofNat 64 n = a + BitVec.ofNat 64 (n + 1) := by
  rw [BitVec.ofNat_add, BitVec.add_assoc, BitVec.add_comm (BitVec.ofNat 64 n)]; rfl

theorem keyBytes_keylen (s : List Byte) (c : Context) :
    (keyBytes s c).keylen = c.keylen + BitVec.ofNat 64 s.length := by
  induction s generalizing c with
  | nil => simp
  | cons x s ih => rw [keyBytes_cons, ih, keyByte_keylen, add_one_add_ofNat, List.length_cons]

theorem add_one_toNat (a : U64) (h : a.toNat + 1 < 2 ^ 64) : (a + 1).toNat = a.toNat + 1 := by
  rw [BitVec.toNat_add, show (1 : U64).toNat = 1 from rfl, Nat.mod_eq_of_lt h]

/-- Key bytes for which KEYBUF has room are held there. -/
theorem keyBytes_of_room (s : List Byte) (c : Context) (room : c.keylen.toNat + s.length ≤ 64) :
    keyBytes s c
      = { c with
          keybuf := overwrite c.keybuf c.keylen.toNat s
          keylen := c.keylen + BitVec.ofNat 64 s.length } := by
  induction s generalizing c with
  | nil => simp [overwrite_nil]
  | cons x s ih =>
    rw [List.length_cons] at room
    have r : c.keylen.toNat < 64 := by omega
    have one := add_one_toNat c.keylen (by omega)
    rw [keyBytes_cons, keyByte_of_room x c r, ih _ (by simp only; omega), overwrite_cons _ _ r, List.length_cons]
    simp only [one, add_one_add_ofNat]

/-- Key bytes after the 65th go straight to the hash. -/
theorem keyBytes_of_hashed (s : List Byte) (c : Context) (more : 64 < c.keylen.toNat)
    (bound : c.keylen.toNat + s.length < 2 ^ 64) :
    keyBytes s c
      = { c with hash := absorb s c.hash, keylen := c.keylen + BitVec.ofNat 64 s.length } := by
  induction s generalizing c with
  | nil => simp
  | cons x s ih =>
    rw [List.length_cons] at bound
    have one := add_one_toNat c.keylen (by omega)
    rw [keyBytes_cons, keyByte_of_hashed x c more, ih _ (by simp only; omega) (by simp only; omega), List.length_cons]
    simp only [add_one_add_ofNat, absorb_cons]

/-- Key bytes that pass the 64th: KEYBUF fills, and its 64 bytes and the rest are hashed. -/
theorem keyBytes_of_crossing (s : List Byte) (c : Context) (le : c.keylen.toNat ≤ 64)
    (cross : 64 < c.keylen.toNat + s.length) (bound : c.keylen.toNat + s.length < 2 ^ 64) :
    keyBytes s c
      = { c with
          keybuf := overwrite c.keybuf c.keylen.toNat (s.take (64 - c.keylen.toNat))
          hash := absorb (s.drop (64 - c.keylen.toNat))
            (absorb (overwrite c.keybuf c.keylen.toNat (s.take (64 - c.keylen.toNat))).toList c.hash)
          keylen := c.keylen + BitVec.ofNat 64 s.length } := by
  have len : (s.take (64 - c.keylen.toNat)).length = 64 - c.keylen.toNat := by
    rw [List.length_take]; omega
  obtain ⟨x, tail, rest⟩ : ∃ x tail, s.drop (64 - c.keylen.toNat) = x :: tail := by
    cases e : s.drop (64 - c.keylen.toNat) with
    | nil => have := List.drop_eq_nil_iff.mp e; omega
    | cons x tail => exact ⟨x, tail, rfl⟩
  have slen : s.length = 64 - c.keylen.toNat + (tail.length + 1) := by
    have := congrArg List.length rest
    rw [List.length_drop, List.length_cons] at this
    omega
  have full : (c.keylen + BitVec.ofNat 64 (64 - c.keylen.toNat)).toNat = 64 := by
    rw [BitVec.toNat_add, BitVec.toNat_ofNat]; omega
  have after := add_one_toNat (c.keylen + BitVec.ofNat 64 (64 - c.keylen.toNat)) (by omega)
  conv => lhs; rw [← List.take_append_drop (64 - c.keylen.toNat) s]
  rw [keyBytes_append, keyBytes_of_room (s.take (64 - c.keylen.toNat)) c (by omega), len, rest, keyBytes_cons,
    keyByte_of_full _ _ full, keyBytes_of_hashed _ _ (by simp only; omega) (by simp only; omega)]
  simp only [absorb_cons, add_one_add_ofNat]
  rw [slen, BitVec.add_assoc, ← BitVec.ofNat_add]

/-! ### What the context holds of a key -/

/-- The context `c` of phase HKEY holds the key `k` (41_hmac.md R144): in KEYBUF, or, when it is longer than 64 bytes, in
the hash. -/
structure HoldsKey (k : List Byte) (c : Context) : Prop where
  keylen : c.keylen = BitVec.ofNat 64 k.length
  held   : k.length ≤ 64 → c.hash = shaInit ∧ c.keybuf = Vector.ofFn fun i : Fin 64 => k.getD i.val 0
  hashed : 64 < k.length → Holds k c.hash ∧ c.hash.len = BitVec.ofNat 64 k.length

theorem holdsKey_init (p : Phase) : HoldsKey [] { hash := shaInit, keybuf := zeros64, keylen := 0, phase := p } :=
  { keylen := rfl
    held := fun _ => ⟨rfl, by
      apply Vector.ext; intro i hi; rw [Vector.getElem_ofFn]; unfold zeros64; rw [Vector.getElem_replicate]; rfl⟩
    hashed := fun h => absurd h (by simp) }

theorem HoldsKey.keyByte {k : List Byte} {c : Context} (hold : HoldsKey k c) (x : Byte) (bound : k.length < 2 ^ 63) :
    HoldsKey (k ++ [x]) (Machine.keyByte x c) := by
  have kl : c.keylen.toNat = k.length := by rw [hold.keylen, BitVec.toNat_ofNat]; omega
  have len : (k ++ [x]).length = k.length + 1 := by simp
  have next : c.keylen + 1 = BitVec.ofNat 64 (k ++ [x]).length := by rw [hold.keylen, len, BitVec.ofNat_add]; rfl
  by_cases room : k.length < 64
  · rw [keyByte_of_room x c (by omega)]
    obtain ⟨hh, hb⟩ := hold.held (by omega)
    refine ⟨next, fun _ => ⟨hh, ?_⟩, fun h => absurd h (by omega)⟩
    apply Vector.ext
    intro i hi
    rw [Vector.getElem_set, Vector.getElem_ofFn]
    simp only [kl]
    by_cases e : k.length = i
    · rw [if_pos e, List.getD_append_right _ _ _ _ (by omega), ← e, Nat.sub_self]; rfl
    · rw [if_neg e]
      simp only [hb, Vector.getElem_ofFn]
      by_cases l : i < k.length
      · rw [List.getD_append _ _ _ _ l]
      · rw [List.getD_eq_default _ _ (by omega), List.getD_eq_default _ _ (by omega)]
  · by_cases full : k.length = 64
    · rw [keyByte_of_full x c (by omega)]
      obtain ⟨hh, hb⟩ := hold.held (by omega)
      have bytes : c.keybuf.toList = k := by
        apply List.ext_getElem
        · simp [full]
        · intro i h1 h2
          rw [Vector.getElem_toList]
          simp only [hb, Vector.getElem_ofFn]
          rw [List.getD_eq_getElem _ _ h2]
      refine ⟨next, fun h => absurd h (by omega), fun _ => ⟨?_, ?_⟩⟩
      · have := (holds_shaInit.absorb k).absorb [x]
        rw [List.nil_append] at this
        simpa [hh, bytes] using this
      · simp only [absorbByte, absorb_len, bytes, hh, len, full]
        rfl
    · rw [keyByte_of_hashed x c (by omega)]
      obtain ⟨hh, hl⟩ := hold.hashed (by omega)
      refine ⟨next, fun h => absurd h (by omega), fun _ => ⟨?_, ?_⟩⟩
      · have := hh.absorb [x]
        rwa [absorb_cons, absorb_nil] at this
      simp only [absorbByte, hl, len, BitVec.ofNat_add]
      rfl

theorem HoldsKey.keyBytes {k : List Byte} {c : Context} (hold : HoldsKey k c) (s : List Byte)
    (bound : k.length + s.length ≤ 2 ^ 63) : HoldsKey (k ++ s) (Machine.keyBytes s c) := by
  induction s generalizing k c with
  | nil => simpa using hold
  | cons x s ih =>
    rw [List.length_cons] at bound
    have := ih (hold.keyByte x (by omega)) (by simp; omega)
    simpa using this

/-- The K0 derived from a key the context holds is the key's block (41_hmac.md R141). -/
theorem HoldsKey.deriveK0 {k : List Byte} {c : Context} (hold : HoldsKey k c) (bound : k.length < 2 ^ 64) :
    Machine.deriveK0 c = keyBlock k := by
  have kl : c.keylen.toNat = k.length := by rw [hold.keylen, BitVec.toNat_ofNat]; omega
  unfold Machine.deriveK0 keyBlock
  rw [kl]
  split
  case isTrue h =>
    obtain ⟨hh, hl⟩ := hold.hashed h
    rw [hh.shaFinal_h hl, sha1]
  case isFalse h => exact (hold.held (by omega)).2

/-! ### The inner and the outer hash -/

@[simp] theorem hmacStart_keylen (c : Context) : (hmacStart c).keylen = c.keylen := rfl
@[simp] theorem hmacStart_phase (c : Context) : (hmacStart c).phase = c.phase := rfl
@[simp] theorem hmacStart_keybuf (c : Context) : (hmacStart c).keybuf = deriveK0 c := rfl
@[simp] theorem hmacFinal_keybuf (c : Context) : (hmacFinal c).keybuf = zeros64 := rfl
@[simp] theorem hmacFinal_keylen (c : Context) : (hmacFinal c).keylen = 0 := rfl
@[simp] theorem hmacFinal_phase (c : Context) : (hmacFinal c).phase = c.phase := rfl

/-- After `hmacStart` the context holds the inner pad (41_hmac.md R145). -/
theorem hmacStart_holds (c : Context) :
    Holds (xorAll (deriveK0 c) 0x36).toList (hmacStart c).hash ∧ (hmacStart c).hash.len = 64 := by
  obtain ⟨h, l⟩ := holds_absorb_init (xorAll (deriveK0 c) 0x36).toList
  exact ⟨h, by rw [show (hmacStart c).hash.len = _ from l]; simp⟩

/-- The result of `hmacFinal` when the context holds `m` (inner pad and message): the outer hash (41_hmac.md R146). -/
theorem hmacFinal_digest {m : List Byte} {c : Context} (hold : Holds m c.hash)
    (len : c.hash.len = BitVec.ofNat 64 m.length) :
    digestBytes (hmacFinal c).hash.h = sha1 ((xorAll c.keybuf 0x5C).toList ++ (sha1 m).toList) := by
  obtain ⟨h, l⟩ := holds_absorb_init ((xorAll c.keybuf 0x5C).toList ++ (sha1 m).toList)
  rw [absorb_append] at h l
  rw [hmacFinal, hold.shaFinal_h len]
  show digestBytes (shaFinal (absorb (sha1 m).toList _)).h = _
  rw [h.shaFinal_h l]; rfl

theorem hmacFinal_len (c : Context) : (hmacFinal c).hash.len = 84 := by
  rw [hmacFinal, shaFinal_len, absorb_len, absorb_len]; simp [shaInit]

theorem hmacFinal_bufcnt (c : Context) : (hmacFinal c).hash.bufcnt = 0 := shaFinal_bufcnt _

end Sys2Proof.Machine
end

