-- ==== Sys2Proof/Laws/PerInstr.lean ====
section
/-! SUPPORT. Per command: it stands in its own row of the opcode table of 30_encoding.md R84, and its word is `opc | (N << 8)` of R93. -/

namespace Sys2Proof.Laws.TableRow

/-- The command is found in the row of its own opcode, its word is `opc + 256·N`, and its row has bits 31:16 zero. -/
def Statement (i : Instr) : Prop :=
  tableRow i.opcode i.count = some i ∧ (encode i).toNat = i.opcode.toNat + 256 * i.count.toNat ∧
    (encode i).toNat < 2 ^ 16

theorem of_any (i : Instr) : Statement i := by
  have a := i.opcode.isLt
  have b := i.count.isLt
  exact ⟨tableRow_opcode i, encode_toNat i, by rw [encode_toNat]; omega⟩

theorem shaInit : Statement .shaInit := of_any _
theorem shaUpdate (n : Byte) : Statement (.shaUpdate n) := of_any _
theorem shaFinal : Statement .shaFinal := of_any _
theorem shaCompress : Statement .shaCompress := of_any _
theorem shaSeth : Statement .shaSeth := of_any _
theorem hmacInit : Statement .hmacInit := of_any _
theorem hmacKey (n : Byte) : Statement (.hmacKey n) := of_any _
theorem hmacStart : Statement .hmacStart := of_any _
theorem hmacMsg (n : Byte) : Statement (.hmacMsg n) := of_any _
theorem hmacFinal : Statement .hmacFinal := of_any _
theorem totpGen : Statement .totpGen := of_any _
theorem totpTrunc : Statement .totpTrunc := of_any _

end Sys2Proof.Laws.TableRow
end

