-- ==== Sys2Proof/Laws/State.lean ====
section
/-! SUPPORT. One lemma per field per named update of the block and of the state: what each sets and what it leaves. -/

namespace Sys2Proof.Machine

/-! ### accept -/

@[simp] theorem accept_irqEn (v : Word) (b : Block) : (accept v b).irqEn = b.irqEn := rfl
@[simp] theorem accept_done (v : Word) (b : Block) : (accept v b).done = false := rfl
@[simp] theorem accept_err (v : Word) (b : Block) : (accept v b).err = b.err := rfl
@[simp] theorem accept_digits (v : Word) (b : Block) : (accept v b).digits = b.digits := rfl
@[simp] theorem accept_interval (v : Word) (b : Block) : (accept v b).interval = b.interval := rfl
@[simp] theorem accept_ts (v : Word) (b : Block) : (accept v b).ts = b.ts := rfl
@[simp] theorem accept_din (v : Word) (b : Block) : (accept v b).din = b.din := rfl
@[simp] theorem accept_counter (v : Word) (b : Block) : (accept v b).counter = b.counter := rfl
@[simp] theorem accept_trunc (v : Word) (b : Block) : (accept v b).trunc = b.trunc := rfl
@[simp] theorem accept_code (v : Word) (b : Block) : (accept v b).code = b.code := rfl
@[simp] theorem accept_codeStr (v : Word) (b : Block) : (accept v b).codeStr = b.codeStr := rfl
@[simp] theorem accept_digest (v : Word) (b : Block) : (accept v b).digest = b.digest := rfl
@[simp] theorem accept_ctx (v : Word) (b : Block) : (accept v b).ctx = b.ctx := rfl
@[simp] theorem accept_pending (v : Word) (b : Block) : (accept v b).pending = some v := rfl

/-! ### complete -/

@[simp] theorem complete_irqEn (b : Block) : (complete b).irqEn = b.irqEn := rfl
@[simp] theorem complete_done (b : Block) : (complete b).done = true := rfl
@[simp] theorem complete_err (b : Block) : (complete b).err = b.err := rfl
@[simp] theorem complete_digits (b : Block) : (complete b).digits = b.digits := rfl
@[simp] theorem complete_interval (b : Block) : (complete b).interval = b.interval := rfl
@[simp] theorem complete_ts (b : Block) : (complete b).ts = b.ts := rfl
@[simp] theorem complete_din (b : Block) : (complete b).din = b.din := rfl
@[simp] theorem complete_counter (b : Block) : (complete b).counter = b.counter := rfl
@[simp] theorem complete_trunc (b : Block) : (complete b).trunc = b.trunc := rfl
@[simp] theorem complete_code (b : Block) : (complete b).code = b.code := rfl
@[simp] theorem complete_codeStr (b : Block) : (complete b).codeStr = b.codeStr := rfl
@[simp] theorem complete_digest (b : Block) : (complete b).digest = b.digest := rfl
@[simp] theorem complete_ctx (b : Block) : (complete b).ctx = b.ctx := rfl
@[simp] theorem complete_pending (b : Block) : (complete b).pending = none := rfl

/-! ### raiseError -/

@[simp] theorem raiseError_irqEn (code : ErrCode) (b : Block) : (raiseError code b).irqEn = b.irqEn := rfl
@[simp] theorem raiseError_done (code : ErrCode) (b : Block) : (raiseError code b).done = true := rfl
@[simp] theorem raiseError_err (code : ErrCode) (b : Block) : (raiseError code b).err = (if b.err = .noError then code else b.err) := rfl
@[simp] theorem raiseError_digits (code : ErrCode) (b : Block) : (raiseError code b).digits = b.digits := rfl
@[simp] theorem raiseError_interval (code : ErrCode) (b : Block) : (raiseError code b).interval = b.interval := rfl
@[simp] theorem raiseError_ts (code : ErrCode) (b : Block) : (raiseError code b).ts = b.ts := rfl
@[simp] theorem raiseError_din (code : ErrCode) (b : Block) : (raiseError code b).din = b.din := rfl
@[simp] theorem raiseError_counter (code : ErrCode) (b : Block) : (raiseError code b).counter = b.counter := rfl
@[simp] theorem raiseError_trunc (code : ErrCode) (b : Block) : (raiseError code b).trunc = b.trunc := rfl
@[simp] theorem raiseError_code (code : ErrCode) (b : Block) : (raiseError code b).code = b.code := rfl
@[simp] theorem raiseError_codeStr (code : ErrCode) (b : Block) : (raiseError code b).codeStr = b.codeStr := rfl
@[simp] theorem raiseError_digest (code : ErrCode) (b : Block) : (raiseError code b).digest = b.digest := rfl
@[simp] theorem raiseError_ctx (code : ErrCode) (b : Block) : (raiseError code b).ctx = b.ctx := rfl
@[simp] theorem raiseError_pending (code : ErrCode) (b : Block) : (raiseError code b).pending = b.pending := rfl

/-! ### busyError -/

@[simp] theorem busyError_irqEn (b : Block) : (busyError b).irqEn = b.irqEn := rfl
@[simp] theorem busyError_done (b : Block) : (busyError b).done = b.done := rfl
@[simp] theorem busyError_err (b : Block) : (busyError b).err = (if b.err = .noError then .busy else b.err) := rfl
@[simp] theorem busyError_digits (b : Block) : (busyError b).digits = b.digits := rfl
@[simp] theorem busyError_interval (b : Block) : (busyError b).interval = b.interval := rfl
@[simp] theorem busyError_ts (b : Block) : (busyError b).ts = b.ts := rfl
@[simp] theorem busyError_din (b : Block) : (busyError b).din = b.din := rfl
@[simp] theorem busyError_counter (b : Block) : (busyError b).counter = b.counter := rfl
@[simp] theorem busyError_trunc (b : Block) : (busyError b).trunc = b.trunc := rfl
@[simp] theorem busyError_code (b : Block) : (busyError b).code = b.code := rfl
@[simp] theorem busyError_codeStr (b : Block) : (busyError b).codeStr = b.codeStr := rfl
@[simp] theorem busyError_digest (b : Block) : (busyError b).digest = b.digest := rfl
@[simp] theorem busyError_ctx (b : Block) : (busyError b).ctx = b.ctx := rfl
@[simp] theorem busyError_pending (b : Block) : (busyError b).pending = b.pending := rfl

/-! ### clearError -/

@[simp] theorem clearError_irqEn (b : Block) : (clearError b).irqEn = b.irqEn := rfl
@[simp] theorem clearError_done (b : Block) : (clearError b).done = b.done := rfl
@[simp] theorem clearError_err (b : Block) : (clearError b).err = .noError := rfl
@[simp] theorem clearError_digits (b : Block) : (clearError b).digits = b.digits := rfl
@[simp] theorem clearError_interval (b : Block) : (clearError b).interval = b.interval := rfl
@[simp] theorem clearError_ts (b : Block) : (clearError b).ts = b.ts := rfl
@[simp] theorem clearError_din (b : Block) : (clearError b).din = b.din := rfl
@[simp] theorem clearError_counter (b : Block) : (clearError b).counter = b.counter := rfl
@[simp] theorem clearError_trunc (b : Block) : (clearError b).trunc = b.trunc := rfl
@[simp] theorem clearError_code (b : Block) : (clearError b).code = b.code := rfl
@[simp] theorem clearError_codeStr (b : Block) : (clearError b).codeStr = b.codeStr := rfl
@[simp] theorem clearError_digest (b : Block) : (clearError b).digest = b.digest := rfl
@[simp] theorem clearError_ctx (b : Block) : (clearError b).ctx = b.ctx := rfl
@[simp] theorem clearError_pending (b : Block) : (clearError b).pending = b.pending := rfl

/-! ### truncate -/

@[simp] theorem truncate_irqEn (d : Vector Byte 20) (digits : BitVec 4) (b : Block) : (truncate d digits b).irqEn = b.irqEn := rfl
@[simp] theorem truncate_done (d : Vector Byte 20) (digits : BitVec 4) (b : Block) : (truncate d digits b).done = b.done := rfl
@[simp] theorem truncate_err (d : Vector Byte 20) (digits : BitVec 4) (b : Block) : (truncate d digits b).err = b.err := rfl
@[simp] theorem truncate_digits (d : Vector Byte 20) (digits : BitVec 4) (b : Block) : (truncate d digits b).digits = b.digits := rfl
@[simp] theorem truncate_interval (d : Vector Byte 20) (digits : BitVec 4) (b : Block) : (truncate d digits b).interval = b.interval := rfl
@[simp] theorem truncate_ts (d : Vector Byte 20) (digits : BitVec 4) (b : Block) : (truncate d digits b).ts = b.ts := rfl
@[simp] theorem truncate_din (d : Vector Byte 20) (digits : BitVec 4) (b : Block) : (truncate d digits b).din = b.din := rfl
@[simp] theorem truncate_counter (d : Vector Byte 20) (digits : BitVec 4) (b : Block) : (truncate d digits b).counter = b.counter := rfl
@[simp] theorem truncate_trunc (d : Vector Byte 20) (digits : BitVec 4) (b : Block) : (truncate d digits b).trunc = truncValue d := rfl
@[simp] theorem truncate_code (d : Vector Byte 20) (digits : BitVec 4) (b : Block) : (truncate d digits b).code = codeOf (truncValue d) digits := rfl
@[simp] theorem truncate_codeStr (d : Vector Byte 20) (digits : BitVec 4) (b : Block) : (truncate d digits b).codeStr = codeStrOf (truncValue d) digits := rfl
@[simp] theorem truncate_digest (d : Vector Byte 20) (digits : BitVec 4) (b : Block) : (truncate d digits b).digest = b.digest := rfl
@[simp] theorem truncate_ctx (d : Vector Byte 20) (digits : BitVec 4) (b : Block) : (truncate d digits b).ctx = b.ctx := rfl
@[simp] theorem truncate_pending (d : Vector Byte 20) (digits : BitVec 4) (b : Block) : (truncate d digits b).pending = b.pending := rfl

/-! ### The state -/

@[simp] theorem hardwareReset_block (s : State) : (hardwareReset s).block = Block.reset := rfl
@[simp] theorem hardwareReset_inputs (s : State) : (hardwareReset s).inputs = s.inputs := rfl
@[simp] theorem hardwareReset_lastRead (s : State) : (hardwareReset s).lastRead = s.lastRead := rfl
@[simp] theorem hardwareReset_drawSource (s : State) : (hardwareReset s).drawSource = s.drawSource := rfl
@[simp] theorem hardwareReset_draws (s : State) : (hardwareReset s).draws = s.draws := rfl

@[simp] theorem loadCommand_inputs (v : Word) (s : State) : (loadCommand v s).inputs = .engine :: s.inputs := rfl
@[simp] theorem loadCommand_pending (v : Word) (s : State) : (loadCommand v s).block.pending = some v := rfl
@[simp] theorem loadCommand_lastRead (v : Word) (s : State) : (loadCommand v s).lastRead = s.lastRead := rfl
@[simp] theorem loadCommand_drawSource (v : Word) (s : State) : (loadCommand v s).drawSource = s.drawSource := rfl
@[simp] theorem loadCommand_draws (v : Word) (s : State) : (loadCommand v s).draws = s.draws := rfl

@[simp] theorem reset_block : State.reset.block = Block.reset := rfl
@[simp] theorem reset_inputs : State.reset.inputs = [] := rfl
@[simp] theorem reset_lastRead : State.reset.lastRead = none := rfl
@[simp] theorem reset_drawSource : State.reset.drawSource = 0 := rfl
@[simp] theorem reset_draws : State.reset.draws = 0 := rfl

/-! ### BUSY and IRQ -/

theorem busy_eq_true_iff (b : Block) : b.busy = true ↔ b.pending ≠ none := by
  unfold Block.busy; cases b.pending <;> simp

theorem busy_eq_false_iff (b : Block) : b.busy = false ↔ b.pending = none := by
  unfold Block.busy; cases b.pending <;> simp

@[simp] theorem complete_busy (b : Block) : (complete b).busy = false := rfl
@[simp] theorem accept_busy (v : Word) (b : Block) : (accept v b).busy = true := rfl
@[simp] theorem complete_irq (b : Block) : (complete b).irq = b.irqEn := by simp [Block.irq]
@[simp] theorem accept_irq (v : Word) (b : Block) : (accept v b).irq = false := by simp [Block.irq]

end Sys2Proof.Machine
end

