-- ==== Sys2Proof/Laws/Step.lean ====
section
/-! SUPPORT. What a step can do, said once: inversion lemmas for the step, the command decoder, the register writes and the engine, which later proofs cite. -/

namespace Sys2Proof.Machine

/-! ### The effect of a command -/

/-- The block after `Exec` of the command `i`, before its completion (20_memory.md R67). -/
def effect (i : Instr) (b : Block) : Block :=
  match i with
  | .shaInit => { b with ctx := { hash := shaInit, keybuf := zeros64, keylen := 0, phase := .sha } }
  | .shaUpdate n => { b with ctx := { b.ctx with hash := absorb (operandBytes b n) b.ctx.hash } }
  | .shaFinal =>
    { b with
      digest := digestWords (digestBytes (shaFinal b.ctx.hash).h)
      ctx := { b.ctx with hash := shaFinal b.ctx.hash, phase := .idle } }
  | .shaCompress =>
    { b with ctx := { b.ctx with hash := { b.ctx.hash with h := compress b.ctx.hash.h (dinBytes b.din) } } }
  | .shaSeth =>
    { b with ctx := { b.ctx with
      hash := { b.ctx.hash with h := #v[b.din[0], b.din[1], b.din[2], b.din[3], b.din[4]] } } }
  | .hmacInit => { b with ctx := { hash := shaInit, keybuf := zeros64, keylen := 0, phase := .hkey } }
  | .hmacKey n => { b with ctx := keyBytes (operandBytes b n) b.ctx }
  | .hmacStart => { b with ctx := { hmacStart b.ctx with phase := .hmsg } }
  | .hmacMsg n => { b with ctx := { b.ctx with hash := absorb (operandBytes b n) b.ctx.hash } }
  | .hmacFinal =>
    { b with
      digest := digestWords (digestBytes (hmacFinal b.ctx).hash.h)
      ctx := { hmacFinal b.ctx with phase := .idle } }
  | .totpGen =>
    let counter := timeStep b.ts b.interval
    let started := hmacStart b.ctx
    let ctx := hmacFinal { started with hash := absorb (be64 counter) started.hash }
    truncate (digestBytes ctx.hash.h) b.digits
      { b with
        counter := counter
        digest := digestWords (digestBytes ctx.hash.h)
        ctx := { ctx with phase := .idle } }
  | .totpTrunc => truncate (digestBytes b.digest) b.digits b

/-- Every command answers a next state: its effect, completed. -/
theorem exec_eq (i : Instr) (s : State) :
    exec i s = .next { s with block := complete (effect i s.block) } := by
  cases i <;> rfl

/-- What an answered next state is. -/
theorem exec_next {i : Instr} {s t : State} (h : exec i s = .next t) :
    t = { s with block := complete (effect i s.block) } := by
  rw [exec_eq] at h; exact (Host.Outcome.next.inj h).symm

/-! ### The engine's step -/

/-- The engine's step answers a next state in two ways: nothing is pending, or a pending command completes. -/
theorem engineStep_next {s t : State} (h : engineStep s = .next t) :
    (s.block.pending = none ∧ t = s) ∨
    ∃ v i, s.block.pending = some v ∧ decode v = .ok i ∧
      t = { s with block := complete (effect i s.block) } := by
  unfold engineStep at h
  split at h
  case h_1 none => exact .inl ⟨none, (Host.Outcome.next.inj h).symm⟩
  case h_2 v some =>
    split at h
    case h_1 i ok => exact .inr ⟨v, i, some, ok, exec_next h⟩
    case h_2 e err => exact absurd h (by simp)

/-! ### Writes -/

/-- A word presented to the decoder has one of three results. -/
theorem presentCommand_cases (v : Word) (b : Block) :
    (b.err ≠ .noError ∧ presentCommand v b = { b with done := true }) ∨
    (b.err = .noError ∧ ∃ code, code ≠ .noError ∧ presentCommand v b = raiseError code b) ∨
    (b.err = .noError ∧ ∃ i, decode v = .ok i ∧ commandError i b = none ∧ presentCommand v b = accept v b) := by
  unfold presentCommand
  split
  case isTrue err => exact .inl ⟨err, rfl⟩
  case isFalse ok =>
    have ok : b.err = .noError := by simpa using ok
    split
    case h_1 e _ => exact .inr (.inl ⟨ok, .illegal, by decide, rfl⟩)
    case h_2 i dec =>
      split
      case h_1 code bad =>
        refine .inr (.inl ⟨ok, code, ?_, rfl⟩)
        rintro rfl
        unfold commandError at bad
        repeat (first | split at bad | simp at bad)
      case h_2 good => exact .inr (.inr ⟨ok, i, dec, good, rfl⟩)

/-- A write while BUSY = 1 to a register that is not frozen acts as when BUSY = 0. -/
theorem writeReg_of_not_busy (r : Reg) (v : Word) (b : Block) (h : b.busy = false) :
    writeReg r v b = storeReg r v b := by simp [writeReg, h]

theorem writeReg_frozen (r : Reg) (v : Word) (b : Block) (h : b.busy = true) (f : r.isFrozen = true) :
    writeReg r v b = busyError b := by simp [writeReg, h, f]

theorem writeReg_not_frozen (r : Reg) (v : Word) (b : Block) (f : r.isFrozen = false) :
    writeReg r v b = storeReg r v b := by simp [writeReg, f]

/-- A write to CTRL resets the block, or sets IRQ_EN and leaves or clears ERR. -/
theorem writeCtrl_cases (v : Word) (b : Block) :
    (v.getLsbD 0 = true ∧ writeCtrl v b = Block.reset) ∨
    (v.getLsbD 0 = false ∧ v.getLsbD 1 = true ∧
      writeCtrl v b = { b with err := .noError, irqEn := v.getLsbD 2 }) ∨
    (v.getLsbD 0 = false ∧ v.getLsbD 1 = false ∧ writeCtrl v b = { b with irqEn := v.getLsbD 2 }) := by
  unfold writeCtrl
  cases v.getLsbD 0 <;> cases v.getLsbD 1 <;> simp [clearError]

/-! ### The step -/

/-- A step that answers a next state, by the agent that moved. -/
theorem step_next {s t : State} (h : step s = .next t) :
    (s.inputs = [] ∧ engineStep s = .next t) ∨
    (∃ rest, s.inputs = .engine :: rest ∧ engineStep { s with inputs := rest } = .next t) ∨
    (∃ rest, s.inputs = .hardReset :: rest ∧ t = { s with inputs := rest, block := Block.reset }) ∨
    (∃ off rest, s.inputs = .host (.read off 32) :: rest ∧ served off 32 = true ∧
      t = { s with
        inputs := rest
        lastRead := some (readReg (regAt off) s.block (Config.draw s.drawSource s.draws))
        draws := s.draws + 1 }) ∨
    (∃ off v rest, s.inputs = .host (.write off 32 v) :: rest ∧ served off 32 = true ∧
      t = { s with inputs := rest, block := writeReg (regAt off) v s.block }) := by
  have width : ∀ off size, served off size = true → size = 32 := by
    intro off size h; simp [served] at h; exact h.1
  unfold step at h
  split at h
  case h_1 empty => exact .inl ⟨empty, h⟩
  case h_2 i rest eq =>
    match i, h with
    | .engine, h => exact .inr (.inl ⟨rest, eq, h⟩)
    | .hardReset, h => exact .inr (.inr (.inl ⟨rest, eq, (Host.Outcome.next.inj h).symm⟩))
    | .host (.read off size), h =>
      simp only [inputStep, hostStep] at h
      split at h
      case isTrue ok =>
        obtain rfl := width off size ok
        exact .inr (.inr (.inr (.inl ⟨off, rest, eq, ok, (Host.Outcome.next.inj h).symm⟩)))
      case isFalse => exact absurd h (by simp)
    | .host (.write off size v), h =>
      simp only [inputStep, hostStep] at h
      split at h
      case isTrue ok =>
        obtain rfl := width off size ok
        exact .inr (.inr (.inr (.inr ⟨off, v, rest, eq, ok, (Host.Outcome.next.inj h).symm⟩)))
      case isFalse => exact absurd h (by simp)

/-- What a step does to the block: nothing, a reset, a register write, or the completion of the pending command. -/
theorem step_block {s t : State} (h : step s = .next t) :
    t.block = s.block ∨ t.block = Block.reset ∨
    (∃ off v rest, s.inputs = .host (.write off 32 v) :: rest ∧ t.block = writeReg (regAt off) v s.block) ∨
    (∃ v i, (s.inputs = [] ∨ ∃ rest, s.inputs = .engine :: rest) ∧ s.block.pending = some v ∧
      decode v = .ok i ∧ t.block = complete (effect i s.block)) := by
  obtain ⟨empty, e⟩ | ⟨rest, eq, e⟩ | ⟨rest, -, rfl⟩ | ⟨off, rest, -, -, rfl⟩ | ⟨off, v, rest, eq, -, rfl⟩ := step_next h
  · obtain ⟨-, rfl⟩ | ⟨v, i, p, d, rfl⟩ := engineStep_next e
    · exact .inl rfl
    · exact .inr (.inr (.inr ⟨v, i, .inl empty, p, d, rfl⟩))
  · obtain ⟨-, rfl⟩ | ⟨v, i, p, d, rfl⟩ := engineStep_next e
    · exact .inl rfl
    · exact .inr (.inr (.inr ⟨v, i, .inr ⟨rest, eq⟩, p, d, rfl⟩))
  · exact .inr (.inl rfl)
  · exact .inl rfl
  · exact .inr (.inr (.inl ⟨off, v, rest, eq, rfl⟩))

/-- No step changes the sequence its instance draws from. -/
theorem step_drawSource {s t : State} (h : step s = .next t) : t.drawSource = s.drawSource := by
  obtain ⟨-, e⟩ | ⟨_, -, e⟩ | ⟨_, -, rfl⟩ | ⟨_, _, -, -, rfl⟩ | ⟨_, _, _, -, -, rfl⟩ := step_next h
  · obtain ⟨-, rfl⟩ | ⟨_, _, -, -, rfl⟩ := engineStep_next e <;> rfl
  · obtain ⟨-, rfl⟩ | ⟨_, _, -, -, rfl⟩ := engineStep_next e <;> rfl
  all_goals rfl

/-! ### Runs, checks and the frame of a write -/

/-- A run of the machine whose first step answers a next state. -/
theorem run_cons {k : Nat} {s t : State} (h : step s = .next t) :
    Host.Core.run core (k + 1) s = Host.Core.run core k t := by
  have h' : core.step s = .next t := h
  simp only [Host.Core.run, h']

/-- What a command that passes every check meets (30_encoding.md R85). -/
theorem commandError_none {i : Instr} {b : Block} (h : commandError i b = none) :
    legal i b.ctx.phase = true ∧ (usesDigits i = true → digitsOk b.digits = true) ∧
      (usesInterval i = true → b.interval ≠ 0) ∧ lengthAfter i b ≤ Config.lmax := by
  unfold commandError at h
  split at h
  case isTrue => cases h
  split at h
  case isTrue => cases h
  split at h
  case isTrue => cases h
  split at h
  case isTrue => cases h
  simp_all

/-- A pending word of a good block is a command that passes its checks. -/
theorem pendingOk_some {b : Block} {v : Word} (h : b.pendingOk = true) (p : b.pending = some v) :
    ∃ i, decode v = .ok i ∧ commandError i b = none := by
  unfold Block.pendingOk at h
  rw [p] at h
  simp only at h
  split at h
  case h_1 i d => exact ⟨i, d, by simpa using h⟩
  case h_2 => exact absurd h (by simp)

/-- What a register write leaves, unless it is a soft reset. -/
theorem writeReg_frame (r : Reg) (v : Word) (b : Block) :
    writeReg r v b = Block.reset ∨
      ((writeReg r v b).digest = b.digest ∧ (writeReg r v b).counter = b.counter ∧
        (writeReg r v b).trunc = b.trunc ∧ (writeReg r v b).code = b.code ∧
        (writeReg r v b).codeStr = b.codeStr ∧ (writeReg r v b).ctx = b.ctx ∧
        ((writeReg r v b).din = b.din ∨ ∃ j, r = .din j) ∧ ((writeReg r v b).digits = b.digits ∨ r = .cfg) ∧
        ((writeReg r v b).interval = b.interval ∨ r = .interval) ∧
        ((writeReg r v b).ts = b.ts ∨ r = .tsLo ∨ r = .tsHi) ∧ ((writeReg r v b).irqEn = b.irqEn ∨ r = .ctrl)) := by
  unfold writeReg
  split
  case isTrue => simp
  case isFalse =>
    cases r <;> simp [storeReg]
    case ctrl => obtain ⟨-, e⟩ | ⟨-, -, e⟩ | ⟨-, -, e⟩ := writeCtrl_cases v b <;> simp [e]
    case status => unfold writeStatus; split <;> simp
    case cmd =>
      obtain ⟨-, e⟩ | ⟨-, _, -, e⟩ | ⟨-, _, -, -, e⟩ := presentCommand_cases v b <;> simp [e]

end Sys2Proof.Machine
end

