-- ==== Sys2Proof/Laws/Totp.lean ====
section
/-! SUPPORT. Truncation and formatting: the offset, the truncated value, the code and the characters of its string as numbers (42_totp.md R174 to R178). -/

namespace Sys2Proof.Machine

theorem digitsOk_iff (d : BitVec 4) : digitsOk d = true ↔ 1 ≤ d.toNat ∧ d.toNat ≤ 9 := by simp [digitsOk]

/-- The quotient of 42_totp.md R171. -/
theorem timeStep_of_ne (ts : U64) (interval : Word) (ne : interval ≠ 0) :
    timeStep ts interval = ts / interval.setWidth 64 := by rw [timeStep, if_neg ne]

theorem codeOf_toNat (v : Word) (d : BitVec 4) (ok : digitsOk d = true) :
    (codeOf v d).toNat = v.toNat % 10 ^ d.toNat := by
  rw [codeOf, if_pos ok, BitVec.toNat_ofNat]
  exact Nat.mod_eq_of_lt (Nat.lt_of_le_of_lt (Nat.mod_le _ _) v.isLt)

theorem codeOf_lt (v : Word) (d : BitVec 4) (ok : digitsOk d = true) : (codeOf v d).toNat < 10 ^ 9 := by
  rw [codeOf_toNat v d ok]
  exact Nat.lt_of_lt_of_le (Nat.mod_lt _ (Nat.pow_pos (by omega)))
    (Nat.pow_le_pow_right (by omega) ((digitsOk_iff d).1 ok).2)

theorem truncOffset_val (d : Vector Byte 20) : (truncOffset d).val = d[19].toNat % 16 := by
  show (d[19] &&& 0x0F).toNat = _
  rw [BitVec.toNat_and]
  exact Nat.and_two_pow_sub_one_eq_mod _ 4

/-- The truncated value is a packed word whose first byte is masked. -/
theorem truncValue_eq_w32 (d : Vector Byte 20) :
    truncValue d = w32 (d[(truncOffset d).val]'(by omega) &&& 0x7F) (d[(truncOffset d).val + 1]'(by omega))
      (d[(truncOffset d).val + 2]'(by omega)) (d[(truncOffset d).val + 3]'(by omega)) := rfl

theorem and_7F_toNat (x : Byte) : (x &&& 0x7F).toNat = x.toNat % 128 := by
  rw [BitVec.toNat_and]; exact Nat.and_two_pow_sub_one_eq_mod _ 7

theorem truncValue_lt (d : Vector Byte 20) : (truncValue d).toNat < 2 ^ 31 := by
  rw [truncValue_eq_w32, w32_toNat, and_7F_toNat]
  have := Nat.mod_lt (d[(truncOffset d).val]'(by omega)).toNat (show 128 > 0 by omega)
  have := (d[(truncOffset d).val + 1]'(by omega)).isLt
  have := (d[(truncOffset d).val + 2]'(by omega)).isLt
  have := (d[(truncOffset d).val + 3]'(by omega)).isLt
  omega

/-- A character of CODE_STR. -/
theorem codeStrOf_getElem (v : Word) (d : BitVec 4) (ok : digitsOk d = true) (k : Nat) (hk : k < 12) :
    (strBytes (codeStrOf v d))[k] = codeChar (codeOf v d) d k := by
  rw [codeStrOf, if_pos ok, strBytes_strWords, Vector.getElem_ofFn]

theorem codeChar_of_lt (code : Word) (d : BitVec 4) (k : Nat) (lt : k < d.toNat) :
    (codeChar code d k).toNat = 0x30 + code.toNat / 10 ^ (d.toNat - 1 - k) % 10 := by
  have := Nat.mod_lt (code.toNat / 10 ^ (d.toNat - 1 - k)) (show 10 > 0 by omega)
  rw [codeChar, if_pos lt, BitVec.toNat_ofNat]
  omega

theorem codeChar_of_ge (code : Word) (d : BitVec 4) (k : Nat) (ge : d.toNat ≤ k) : codeChar code d k = 0 := by
  rw [codeChar, if_neg (by omega)]

end Sys2Proof.Machine
end

