-- ==== Sys2Proof/Laws/Sequence.lean ====
section
/-! SUPPORT. Sequences of commands: one command, two sequences joined, and what feeding pieces to HMAC_KEY, SHA_UPDATE and HMAC_MSG leaves (40_sha1.md R112, 41_hmac.md R147). -/

namespace Sys2Proof.Machine

theorem execAll_append (as bs : List LoadedCommand) {s t : State} (h : execAll as s = .next t) :
    execAll (as ++ bs) s = execAll bs t := by
  induction as generalizing s with
  | nil => rw [execAll] at h; cases h; rfl
  | cons a as ih =>
    rw [execAll, exec_eq] at h
    rw [List.cons_append, execAll, exec_eq]
    exact ih h

theorem execAll_one (d : Vector Word 16) (i : Instr) (s : State) :
    execAll [{ din := d, cmd := i }] s
      = .next { s with block := complete (effect i { s.block with din := d }) } := by
  rw [execAll, exec_eq]; rfl

theorem piecesBytes_cons (p : Piece) (ps : List Piece) : piecesBytes (p :: ps) = p.bytes ++ piecesBytes ps := rfl

/-- The key a context holds after HMAC_KEY over the pieces of a key. -/
theorem execAll_feed_key (ks : List Piece) (k : List Byte) (s : State) (hold : HoldsKey k s.block.ctx)
    (bound : k.length + (piecesBytes ks).length ≤ 2 ^ 63) :
    ∃ t, execAll (feed .hmacKey ks) s = .next t ∧ HoldsKey (k ++ piecesBytes ks) t.block.ctx ∧
      t.block.digits = s.block.digits ∧ t.block.interval = s.block.interval ∧ t.block.ts = s.block.ts := by
  induction ks generalizing k s with
  | nil => exact ⟨s, rfl, by simpa [piecesBytes] using hold, rfl, rfl, rfl⟩
  | cons p ps ih =>
    rw [piecesBytes_cons, List.length_append] at bound
    have one := execAll_one p.din (.hmacKey p.count) s
    have held : HoldsKey (k ++ p.bytes) (complete (effect (.hmacKey p.count) { s.block with din := p.din })).ctx :=
      hold.keyBytes _ (show k.length + p.bytes.length ≤ _ by omega)
    obtain ⟨t, run, holds, rest⟩ := ih (k ++ p.bytes)
      { s with block := complete (effect (.hmacKey p.count) { s.block with din := p.din }) } held (by simp; omega)
    refine ⟨t, ?_, by rw [piecesBytes_cons, ← List.append_assoc]; exact holds, rest⟩
    show execAll ([{ din := p.din, cmd := .hmacKey p.count }] ++ feed .hmacKey ps) s = _
    rw [execAll_append _ _ one, run]

/-- The message a context holds after SHA_UPDATE or HMAC_MSG over the pieces of a message. -/
theorem execAll_feed_absorb {cmd : Byte → Instr} (absorbs : cmd = .shaUpdate ∨ cmd = .hmacMsg) (ms : List Piece)
    (m : List Byte) (s : State) (hold : Holds m s.block.ctx.hash)
    (len : s.block.ctx.hash.len = BitVec.ofNat 64 m.length) :
    ∃ t, execAll (feed cmd ms) s = .next t ∧ Holds (m ++ piecesBytes ms) t.block.ctx.hash ∧
      t.block.ctx.hash.len = BitVec.ofNat 64 (m ++ piecesBytes ms).length ∧
      t.block.ctx.keybuf = s.block.ctx.keybuf := by
  have hash_eq : ∀ (n : Byte) (b : Block), (complete (effect (cmd n) b)).ctx.hash = absorb (operandBytes b n) b.ctx.hash := by
    rcases absorbs with rfl | rfl <;> intro n b <;> rfl
  have keybuf_eq : ∀ (n : Byte) (b : Block), (complete (effect (cmd n) b)).ctx.keybuf = b.ctx.keybuf := by
    rcases absorbs with rfl | rfl <;> intro n b <;> rfl
  induction ms generalizing m s with
  | nil => exact ⟨s, rfl, by simpa [piecesBytes] using hold, by simpa [piecesBytes] using len, rfl⟩
  | cons p ps ih =>
    have one := execAll_one p.din (cmd p.count) s
    have absorbed : (complete (effect (cmd p.count) { s.block with din := p.din })).ctx.hash
        = absorb p.bytes s.block.ctx.hash := hash_eq _ _
    obtain ⟨t, run, holds, rest, key⟩ := ih (m ++ p.bytes)
      { s with block := complete (effect (cmd p.count) { s.block with din := p.din }) }
      (by simpa only [absorbed] using hold.absorb _)
      (by simp only [absorbed, absorb_len, len, List.length_append, BitVec.ofNat_add])
    refine ⟨t, ?_, by rw [piecesBytes_cons, ← List.append_assoc]; exact holds,
      by rw [piecesBytes_cons, ← List.append_assoc]; exact rest, key.trans (keybuf_eq _ _)⟩
    show execAll ([{ din := p.din, cmd := cmd p.count }] ++ feed cmd ps) s = _
    rw [execAll_append _ _ one, run]

end Sys2Proof.Machine
end

