-- ==== Sys2Proof/Machine/HostProgram.lean ====
section
/-! DEFINITION. Host programs as lists of inputs (30_encoding.md R93 to R97): the host's steps WR, RD and CMD, the pseudo-instructions WAIT and LOADDIN, and the source's three functions. A branch of the host (BNZ, BZ) is no access; a list is the path taken. -/

namespace Sys2Proof.Machine

/-- `WR REG, v` (R94). -/
def wr (r : Reg) (v : Word) : List Input := [.host (.write (regOffset r) 32 v)]

/-- `RD REG` (R94). -/
def rd (r : Reg) : List Input := [.host (.read (regOffset r) 32)]

/-- `CMD m` (R94): the word of the command m to CMD. -/
def cmd (i : Instr) : List Input := wr .cmd (encode i)

/-- `WAIT` (R96): `polls` reads of STATUS that find BUSY = 1, the engine's step, and the read that finds BUSY = 0. -/
def wait (polls : Nat) : List Input :=
  (List.replicate polls (rd .status)).flatten ++ [.engine] ++ rd .status

/-- The word `W32(c', 4j)` of R97, c' being c followed by zero bytes. -/
def dinWord (c : List Byte) (j : Nat) : Word :=
  w32 (c.getD (4 * j) 0) (c.getD (4 * j + 1) 0) (c.getD (4 * j + 2) 0) (c.getD (4 * j + 3) 0)

/-- `LOADDIN c` (R97), for at most 64 bytes. -/
def loadDin (c : List Byte) : List Input :=
  (List.range ((c.length + 3) / 4)).flatMap fun j => wr (.din (Fin.ofNat 16 j)) (dinWord c j)

/-- The pieces of at most 64 bytes of a byte string (R95), at most `k` of them. -/
def chunksUpTo : Nat → List Byte → List (List Byte)
  | 0, _ => []
  | k + 1, s => if s.isEmpty then [] else s.take 64 :: chunksUpTo k (s.drop 64)

/-- `chunks(s)` (R95); an empty string has none. -/
def chunks (s : List Byte) : List (List Byte) := chunksUpTo s.length s

/-- The chunks of s, each loaded into DIN and consumed by an N-format command (R95). -/
def sendChunks (polls : Nat) (m : Byte → Instr) (s : List Byte) : List Input :=
  (chunks s).flatMap fun c => loadDin c ++ cmd (m (BitVec.ofNat 8 c.length)) ++ wait polls

/-- `RD DIGEST0..DIGEST4`. -/
def readDigest : List Input := (List.range 5).flatMap fun k => rd (.digest (Fin.ofNat 5 k))

/-- `SHA1_HASH m` (R95). -/
def sha1Hash (polls : Nat) (m : List Byte) : List Input :=
  cmd .shaInit ++ wait polls ++ sendChunks polls .shaUpdate m ++ cmd .shaFinal ++ wait polls ++ readDigest

/-- `HMAC_SHA1 key, msg` (R95). -/
def hmacSha1 (polls : Nat) (key msg : List Byte) : List Input :=
  cmd .hmacInit ++ wait polls ++ sendChunks polls .hmacKey key ++ cmd .hmacStart ++ wait polls
    ++ sendChunks polls .hmacMsg msg ++ cmd .hmacFinal ++ wait polls ++ readDigest

/-- `GENERATE_TOTP secret, d, iv, t` (R95). -/
def generateTotp (polls : Nat) (secret : List Byte) (d iv : Word) (t : U64) : List Input :=
  wr .cfg d ++ wr .interval iv ++ wr .tsLo (lo32 t) ++ wr .tsHi (hi32 t) ++ cmd .hmacInit ++ wait polls
    ++ sendChunks polls .hmacKey secret ++ cmd .totpGen ++ wait polls
    ++ (List.range 3).flatMap fun j => rd (.codeStr (Fin.ofNat 3 j))

end Sys2Proof.Machine
end

