-- ==== Sys2Proof/Tests/Slice0.lean ====
section
/-! SUPPORT. Tests of the model: words written out from 30_encoding.md, ill-formed terms, the known answers of 95_test_vectors.md (named S1, M3, T1, E1, B3 ... as there), one step each; and for every statement with hypotheses a concrete case that meets them. -/

namespace Sys2Proof.Tests
open Sys2Proof.Machine
set_option Elab.async false

/-! ### Helpers -/

/-- The block an outcome leads to. -/
def blockOf (o : Host.Outcome State Fault Refusal) : Option Block :=
  match o with
  | .next t => some t.block
  | .fault _ => none
  | .refused _ => none

/-- A fault's reason. -/
def faultOf (o : Host.Outcome State Fault Refusal) : Option Fault :=
  match o with
  | .next _ => none
  | .fault r => some r
  | .refused _ => none

/-- The machine with this block and these inputs. -/
def machine (b : Block) (inputs : List Input) : State := { State.reset with block := b, inputs := inputs }

/-- The reset block with this context. -/
def withCtx (c : Context) : Block := { Block.reset with ctx := c }

/-- The effect of a command on a block. -/
def after (i : Instr) (b : Block) : Option Block := blockOf (exec i (machine b []))

/-- A hash context: chaining state, the bytes in BUF, and LEN. -/
def hashCtx (h : Vector Word 5) (buf : List Byte) (len : U64) : HashCtx :=
  { h := h, buf := Vector.ofFn fun i : Fin 64 => buf.getD i.val 0, bufcnt := Fin.ofNat 64 buf.length, len := len }

/-- A context of this phase that has hashed whole blocks to `h` and holds `buf`. -/
def context (p : Phase) (h : Vector Word 5) (buf : List Byte) (len : U64) (key : List Byte) : Context :=
  { hash := hashCtx h buf len
    keybuf := Vector.ofFn fun i : Fin 64 => key.getD i.val 0
    keylen := BitVec.ofNat 64 key.length
    phase := p }

/-- DIN with these first words. -/
def din (ws : List Word) : Vector Word 16 := Vector.ofFn fun j : Fin 16 => ws.getD j.val 0

/-- The key 0x0B×20 of RFC 2202 case 1. -/
def key0B : List Byte := List.replicate 20 0x0B

/-- The secret "12345678901234567890". -/
def secret : List Byte :=
  [0x31, 0x32, 0x33, 0x34, 0x35, 0x36, 0x37, 0x38, 0x39, 0x30, 0x31, 0x32, 0x33, 0x34, 0x35, 0x36, 0x37, 0x38, 0x39, 0x30]

/-- The block before TOTP_GEN of the vectors T1 to T6: the secret is loaded, CFG is 8. -/
def totpReady (ts : U64) : Block :=
  { withCtx (context .hkey sha1IV [] 0 secret) with digits := 8, ts := ts }

/-- The digest of T1. -/
def digestT1 : Vector Word 5 := #v[0x75A48A19, 0xD4CBE100, 0x644E8AC1, 0x397EEA74, 0x7A2D33AB]

/-- A block with a command pending. -/
def busy : Block := { Block.reset with pending := some 0x00000001 }

/-! ### WellFormed -/

theorem test_wf_refuses_shaUpdate_65 : ¬ (Instr.shaUpdate 65).WellFormed := by decide
theorem test_wf_refuses_hmacKey_65 : ¬ (Instr.hmacKey 65).WellFormed := by decide
theorem test_wf_refuses_hmacMsg_255 : ¬ (Instr.hmacMsg 255).WellFormed := by decide
theorem test_wf_admits_64 :
    (Instr.shaUpdate 64).WellFormed ∧ (Instr.hmacKey 64).WellFormed ∧ (Instr.hmacMsg 64).WellFormed := by decide

/-! ### Decoding, the words written out bit by bit: RSV (16 zeros), N (8 bits), OPC (8 bits) -/

theorem test_decode_shaInit : decode 0b00000000000000000000000000000001 = .ok .shaInit := rfl
theorem test_decode_shaUpdate : decode 0b00000000000000000000001100000010 = .ok (.shaUpdate 3) := rfl
theorem test_decode_shaFinal : decode 0b00000000000000000000000000000011 = .ok .shaFinal := rfl
theorem test_decode_shaCompress : decode 0b00000000000000000000000000000100 = .ok .shaCompress := rfl
theorem test_decode_shaSeth : decode 0b00000000000000000000000000000101 = .ok .shaSeth := rfl
theorem test_decode_hmacInit : decode 0b00000000000000000000000000010001 = .ok .hmacInit := rfl
theorem test_decode_hmacKey : decode 0b00000000000000000001010000010010 = .ok (.hmacKey 20) := rfl
theorem test_decode_hmacStart : decode 0b00000000000000000000000000010011 = .ok .hmacStart := rfl
theorem test_decode_hmacMsg : decode 0b00000000000000000000100000010100 = .ok (.hmacMsg 8) := rfl
theorem test_decode_hmacFinal : decode 0b00000000000000000000000000010101 = .ok .hmacFinal := rfl
theorem test_decode_totpGen : decode 0b00000000000000000000000000100001 = .ok .totpGen := rfl
theorem test_decode_totpTrunc : decode 0b00000000000000000000000000100010 = .ok .totpTrunc := rfl

theorem test_decode_rejects_zero : decode 0x00000000 = .error .reservedOpcode := rfl
theorem test_decode_rejects_bit31 : decode 0x80000001 = .error .reservedBits := rfl
theorem test_decode_rejects_65 : decode 0x00004114 = .error .countTooLarge := rfl
theorem test_decode_rejects_z_count : decode 0x00000121 = .error .countNotZero := rfl
theorem test_decode_rejects_neighbours :
    decode 0x06 = .error .reservedOpcode ∧ decode 0x10 = .error .reservedOpcode ∧
    decode 0x16 = .error .reservedOpcode ∧ decode 0x20 = .error .reservedOpcode ∧
    decode 0x23 = .error .reservedOpcode := ⟨rfl, rfl, rfl, rfl, rfl⟩
theorem test_decodeTableWord : decodeTableWord 8 0x13 = some .hmacStart ∧ decodeTableWord 32 0x1412 = some (.hmacKey 20) := by
  decide
theorem test_encode : encode (.hmacKey 20) = 0x00001412 ∧ encode .totpTrunc = 0x00000022 := by decide
theorem test_assemble :
    assemble "SHA_UPDATE" (some 3) = some 0x00000302 ∧ assemble "TOTP_GEN" none = some 0x00000021 ∧
    assemble "SHA_UPDATE" (some 65) = none := by decide

/-! ### The compression function: the round trace of "abc" (95_test_vectors.md §2.1) -/

/-- The padded block of "abc". -/
def abcBlock : Vector Byte 64 := dinBytes (din [0x61626380, 0, 0, 0, 0, 0, 0, 0, 0, 0, 0, 0, 0, 0, 0, 0x18])

theorem test_schedule_abc :
    (schedule abcBlock).getD 16 0 = 0xC2C4C700 ∧ (schedule abcBlock).getD 19 0 = 0x85898E01 ∧
    (schedule abcBlock).getD 79 0 = 0x822E0879 := by decide +kernel

theorem test_round_0 :
    round 0 0x61626380 (Vars.start sha1IV)
      = { a := 0x0116FC33, b := 0x67452301, c := 0x7BF36AE2, d := 0x98BADCFE, e := 0x10325476 } := by decide +kernel

theorem test_rounds_0_to_40 :
    rounds ((schedule abcBlock).take 41) 0 (Vars.start sha1IV)
      = { a := 0xFC87DEDF, b := 0x32DE1CBA, c := 0x53261901, d := 0xF718E5CF, e := 0x03D447F6 } := by decide +kernel

/-! ### The SHA-1 commands -/

/-- 40_sha1.md R114, M18: SHA_INIT in phase HMSG abandons the HMAC and clears its key. -/
theorem test_shaInit_clears_key :
    (after .shaInit (withCtx (context .hmsg digestT1 [1, 2] 66 key0B))).map (·.ctx)
      = some (context .sha sha1IV [] 0 []) := by decide +kernel

/-- S2. -/
theorem test_shaUpdate_3 :
    (after (.shaUpdate 3) { withCtx (context .sha sha1IV [] 0 []) with din := din [0x61626300] }).map (·.ctx)
      = some (context .sha sha1IV [0x61, 0x62, 0x63] 3 []) := by decide +kernel

/-- S16, program P5: a whole block. -/
theorem test_shaUpdate_64 :
    (after (.shaUpdate 64)
      { withCtx (context .sha sha1IV [] 0 []) with din := Vector.replicate 16 0x61616161 }).map
        (fun b => (b.ctx.hash.h, b.ctx.hash.bufcnt, b.ctx.hash.len))
      = some (#v[0xDA4968EB, 0x2E377C1F, 0x884E8F52, 0x83524BEB, 0xE74EBDBD], 0, 64) := by decide +kernel

/-- S1: the empty message. -/
theorem test_shaFinal_empty :
    (after .shaFinal (withCtx (context .sha sha1IV [] 0 []))).map (fun b => (b.digest, b.ctx.phase, b.ctx.hash.bufcnt))
      = some (#v[0xDA39A3EE, 0x5E6B4B0D, 0x3255BFEF, 0x95601890, 0xAFD80709], .idle, 0) := by decide +kernel

/-- S11: 56 bytes, two final blocks. -/
theorem test_shaFinal_56 :
    (after .shaFinal (withCtx (context .sha sha1IV (List.replicate 56 0x61) 56 []))).map
        (fun b => (b.digest, b.ctx.hash.h, b.ctx.hash.len))
      = some (#v[0xC2DB330F, 0x6083854C, 0x99D4B5BF, 0xB6E8F29F, 0x201BE699],
          #v[0xC2DB330F, 0x6083854C, 0x99D4B5BF, 0xB6E8F29F, 0x201BE699], 56) := by decide +kernel

/-- S6. -/
theorem test_shaCompress_abc :
    (after .shaCompress
      { withCtx (context .sha sha1IV [] 0 []) with
        din := din [0x61626380, 0, 0, 0, 0, 0, 0, 0, 0, 0, 0, 0, 0, 0, 0, 0x18] }).map
        (fun b => (b.ctx.hash.h, b.ctx.hash.len))
      = some (#v[0xA9993E36, 0x4706816A, 0xBA3E2571, 0x7850C26C, 0x9CD0D89D], 0) := by decide +kernel

/-- S8, second command: compress(0^5, 0^64). -/
theorem test_shaCompress_zero :
    (after .shaCompress (withCtx (context .sha #v[0, 0, 0, 0, 0] [] 0 []))).map (·.ctx.hash.h)
      = some #v[0x9E1547ED, 0x57EC91C2, 0x30FA8BC8, 0xC7785A54, 0xA7EFA5E3] := by decide +kernel

/-- S9. -/
theorem test_shaSeth :
    (after .shaSeth { withCtx (context .sha sha1IV [] 0 []) with din := din [1, 2, 3, 4, 5, 6] }).map (·.ctx)
      = some (context .sha #v[1, 2, 3, 4, 5] [] 0 []) := by decide +kernel

/-! ### The HMAC commands -/

/-- 41_hmac.md R148. -/
theorem test_hmacInit :
    (after .hmacInit (withCtx (context .sha digestT1 [1] 1 []))).map (·.ctx)
      = some (context .hkey sha1IV [] 0 []) := by decide +kernel

/-- M2: the key is held, not hashed. -/
theorem test_hmacKey_20 :
    (after (.hmacKey 20)
      { withCtx (context .hkey sha1IV [] 0 []) with din := Vector.replicate 16 0x0B0B0B0B }).map (·.ctx)
      = some (context .hkey sha1IV [] 0 key0B) := by decide +kernel

/-- M12: the 65th key byte moves the held 64 into the hash. -/
theorem test_hmacKey_65th :
    (after (.hmacKey 1)
      { withCtx (context .hkey sha1IV [] 0 (List.replicate 64 0xAA)) with din := din [0xAA000000] }).map
        (fun b => (b.ctx.hash.h, b.ctx.hash.bufcnt, b.ctx.hash.len, b.ctx.keylen))
      = some (#v[0xF90BA1B5, 0x0FF0AEA0, 0x54242251, 0x212CDD93, 0xF4A4EFD5], 1, 65, 65) := by decide +kernel

/-- M3. -/
theorem test_hmacStart :
    (after .hmacStart (withCtx (context .hkey sha1IV [] 0 key0B))).map
        (fun b => (b.ctx.hash.h, b.ctx.hash.len, b.ctx.hash.bufcnt, b.ctx.phase))
      = some (#v[0x064C662A, 0xCC6ED1B0, 0x6CFA9AB0, 0x042F137F, 0xCEA570EB], 64, 0, .hmsg) := by decide +kernel

/-- M13: the K0 of a key of 65 bytes is its hash. -/
theorem test_hmacStart_long_key :
    (after .hmacStart { Block.reset with ctx :=
      { hash := hashCtx #v[0xF90BA1B5, 0x0FF0AEA0, 0x54242251, 0x212CDD93, 0xF4A4EFD5] [0xAA] 65
        keybuf := Vector.replicate 64 0xAA
        keylen := 65
        phase := .hkey } }).map (fun b => b.ctx.keybuf.toList)
      = some ([0x0B, 0x53, 0x1D, 0x74, 0xB0, 0xBB, 0x03, 0xE9, 0xA9, 0x81, 0x1A, 0x7F, 0x5F, 0x67, 0xAF, 0x3C, 0xAF, 0x27,
          0x03, 0x83] ++ List.replicate 44 0) := by decide +kernel

/-- The context of M4, before or after "Hi There". -/
def hmacMsgCtx (buf : List Byte) (len : U64) : Context :=
  context .hmsg #v[0x064C662A, 0xCC6ED1B0, 0x6CFA9AB0, 0x042F137F, 0xCEA570EB] buf len key0B

/-- M4. -/
theorem test_hmacMsg_8 :
    (after (.hmacMsg 8) { withCtx (hmacMsgCtx [] 64) with din := din [0x48692054, 0x68657265] }).map (·.ctx)
      = some (hmacMsgCtx [0x48, 0x69, 0x20, 0x54, 0x68, 0x65, 0x72, 0x65] 72) := by decide +kernel

/-- M5, V3: RFC 2202 test case 1. -/
theorem test_hmacFinal :
    (after .hmacFinal (withCtx (hmacMsgCtx [0x48, 0x69, 0x20, 0x54, 0x68, 0x65, 0x72, 0x65] 72))).map
        (fun b => (b.digest, b.ctx.hash.len, b.ctx.keylen, b.ctx.phase))
      = some (#v[0xB6173186, 0x55057264, 0xE28BC0B6, 0xFB378C8E, 0xF146BE00], 84, 0, .idle) := by decide +kernel

/-! ### The TOTP commands -/

/-- T1, V4. -/
theorem test_totpGen_59 :
    (after .totpGen (totpReady 59)).map (fun b => (b.counter, b.digest, b.trunc, b.code, b.codeStr))
      = some (1, digestT1, 0x41397EEA, 94287082, #v[0x39343238, 0x37303832, 0]) := by decide +kernel

/-- T6: a timestamp above 2^32. -/
theorem test_totpGen_20000000000 :
    (after .totpGen (totpReady 20000000000)).map (fun b => (b.counter, b.trunc, b.code))
      = some (0x27BC86AA, 0x575783AA, 65353130) := by decide +kernel

/-- T10. -/
theorem test_totpTrunc_6 :
    (after .totpTrunc { Block.reset with digest := digestT1 }).map (fun b => (b.trunc, b.code, b.codeStr, b.digest))
      = some (0x41397EEA, 287082, #v[0x32383730, 0x38320000, 0], digestT1) := by decide +kernel

/-- T14: nine digits, zero padding. -/
theorem test_totpTrunc_9 :
    (after .totpTrunc { Block.reset with digest := digestT1, digits := 9 }).map (fun b => (b.code, b.codeStr))
      = some (94287082, #v[0x30393432, 0x38373038, 0x32000000]) := by decide +kernel

/-! ### Decode errors (E), through a write to CMD; the STATUS read after it -/

/-- STATUS after a write, with BUSY = 0. -/
def statusAfter (r : Reg) (v : Word) (b : Block) : Word := statusWord (writeReg r v b) default

theorem test_E1_illegal_zero : statusAfter .cmd 0x00000000 Block.reset = 0x00000012 := by decide
theorem test_E2_illegal_first : statusAfter .cmd 0x00000103 Block.reset = 0x00000012 := by decide
theorem test_E6_sequence : statusAfter .cmd 0x00000302 Block.reset = 0x00000022 := by decide
theorem test_E7_sticky : statusAfter .cmd 0x00000302 { Block.reset with err := .illegal } = 0x00000012 := by decide
theorem test_E9_errclr : statusAfter .ctrl 2 { Block.reset with err := .illegal } = 0x00000000 := by decide
theorem test_E15_irq : statusAfter .cmd 0x00000000 { Block.reset with irqEn := true } = 0x00000016 := by decide
theorem test_T19_digits_before_interval :
    statusAfter .cmd 0x21 { withCtx (context .hkey sha1IV [] 0 []) with digits := 0, interval := 0 } = 0x00000232 := by
  decide +kernel
theorem test_T20_interval :
    statusAfter .cmd 0x21 { withCtx (context .hkey sha1IV [] 0 []) with interval := 0 } = 0x00000242 := by decide +kernel
theorem test_T21_digits_10 : statusAfter .cmd 0x22 { Block.reset with digits := 10 } = 0x00000032 := by decide
theorem test_M16_key_after_start :
    statusAfter .cmd 0x00000112 (withCtx (hmacMsgCtx [] 64)) = 0x00000322 := by decide +kernel
/-- E16: LEN = LMAX − 2 and three more bytes; with LMAX − 3 they fit. -/
theorem test_E16_length :
    statusAfter .cmd 0x302 (withCtx (context .sha sha1IV (List.replicate 61 0) 0x1FFFFFFFFFFFFFFD [])) = 0x003D0162 ∧
    (writeReg .cmd 0x302 (withCtx (context .sha sha1IV (List.replicate 60 0) 0x1FFFFFFFFFFFFFFC []))).pending
      = some 0x302 := by decide +kernel
theorem test_accept_pending : (writeReg .cmd 0x1 Block.reset).pending = some 0x1 := by decide
theorem test_E11_busy_write :
    (writeReg (.din 0) 5 busy).din = Block.reset.din ∧ (writeReg (.din 0) 5 busy).err = .busy := by decide
theorem test_E13_abort : writeReg .ctrl 1 busy = Block.reset := by decide

/-! ### Bus (B), one step -/

/-- The word a read of the reset block returns. -/
def readReset (off : BitVec 8) : Word := readReg (regAt off) Block.reset default

theorem test_B1_id : readReset 0xC0 = 0x53484131 := by decide
theorem test_B2_cmd : readReset 0x08 = 0 := by decide
theorem test_B3_reserved : readReset 0x94 = 0 ∧ readReset 0xB4 = 0 ∧ readReset 0xFC = 0 := by decide
theorem test_B4_bus_error :
    faultOf (step (machine Block.reset [.host (.write 0x40 8 5)])) = some (.busError Block.reset) ∧
    faultOf (step (machine Block.reset [.host (.read 0x42 32)])) = some (.busError Block.reset) := by decide
theorem test_B5_read_only : writeReg (.digest 0) 0x12345678 Block.reset = Block.reset := by decide
theorem test_B6_reset_reads : readReset 0x0C = 6 ∧ readReset 0x10 = 30 ∧ readReset 0xA0 = 0x67452301 := by decide
theorem test_B7_cfg : readReg .cfg (writeReg .cfg 0xFFFFFFFF Block.reset) default = 0xF := by decide
theorem test_B8_ts :
    blockOf (step (machine { Block.reset with ts := 0x400000000 } [.host (.write 0x14 32 0xA817C800)]))
      = some { Block.reset with ts := 20000000000 } := by decide
theorem test_host_read_step :
    (match step (machine Block.reset [.host (.read 0x10 32)]) with
      | .next t => t.lastRead
      | _ => none) = some 30 := by decide
theorem test_withFetchWord_hmacInit :
    (blockOf (step (State.reset.withFetchWord 32 0x11))).map (fun b => (b.ctx.phase, b.pending, b.done))
      = some (.hkey, none, true) := by decide
theorem test_withFetchWord_totpTrunc :
    (blockOf (step (State.reset.withFetchWord 8 0x22))).map (fun b => (b.trunc, b.code, b.codeStr))
      = some (0, 0, #v[0x30303030, 0x30300000, 0]) := by decide +kernel

/-! ### Datapath, timing, host programs, platform -/

/-- 40_sha1.md R119: a loop of two rounds per clock. -/
theorem test_datapath_iterative :
    compressBy (.iterative 2) sha1IV abcBlock
      = some #v[0xA9993E36, 0x4706816A, 0xBA3E2571, 0x7850C26C, 0x9CD0D89D] := by decide +kernel
/-- S15 and S13: the counts of compressions. -/
theorem test_counts :
    compressions .shaFinal (withCtx (context .sha sha1IV (List.replicate 56 0) 120 [])) = 2 ∧
    compressions (.shaUpdate 64) (withCtx (context .sha sha1IV [] 0 [])) = 1 := by decide +kernel
/-- P1: the bus writes of SHA1_HASH "abc" (with no poll that finds BUSY = 1). -/
theorem test_sha1Hash_writes :
    (sha1Hash 0 [0x61, 0x62, 0x63]).take 8
      = [.host (.write 0x08 32 0x1), .engine, .host (.read 0x04 32), .host (.write 0x40 32 0x61626300),
         .host (.write 0x08 32 0x302), .engine, .host (.read 0x04 32), .host (.write 0x08 32 0x3)] := by decide +kernel
/-- 20_memory.md R60: the second window's CMD. -/
theorem test_route :
    Platform.route [{ page := 1, state := State.reset }, { page := 7, state := State.reset }] 0x708 = some (1, 0x08) := by
  decide

/-! ### Witnesses: for every statement with hypotheses, concrete cases that meet them, at the bounds of each clause -/

theorem witness_IllegalWords :
    Block.reset.err = .noError ∧ 2 ^ 16 ≤ (0x00010000 : Word).toNat ∧
    ((0x0000FF06 : Word).toNat < 2 ^ 16 ∧ (0x0000FF06 : Word).toNat % 256
      ∉ [0x01, 0x02, 0x03, 0x04, 0x05, 0x11, 0x12, 0x13, 0x14, 0x15, 0x21, 0x22]) ∧
    ((0x00000122 : Word).toNat < 2 ^ 16 ∧ (0x00000122 : Word).toNat % 256
      ∈ [0x01, 0x03, 0x04, 0x05, 0x11, 0x13, 0x15, 0x21, 0x22] ∧ (0x00000122 : Word).toNat / 256 ≠ 0) ∧
    ((0x00004114 : Word).toNat < 2 ^ 16 ∧ (0x00004114 : Word).toNat % 256 ∈ [0x02, 0x12, 0x14] ∧
      64 < (0x00004114 : Word).toNat / 256) ∧
    decode 0x00000000 = .error .reservedOpcode :=
  ⟨rfl, by decide, by decide, by decide, by decide, rfl⟩

theorem witness_CommandSyntax :
    (Instr.hmacMsg 64).WellFormed ∧ Instr.totpTrunc.WellFormed ∧ parse "HMAC_MSG" (some 64) = some (.hmacMsg 64) ∧
    parse "TOTP_TRUNC" none = some .totpTrunc := by decide

theorem witness_RoundTable :
    (0 ≤ 19 ∧ 19 ≤ 19) ∧ (20 ≤ 20 ∧ 39 ≤ 39) ∧ (40 ≤ 40 ∧ 59 ≤ 59) ∧ (60 ≤ 60 ∧ 79 ≤ 79) := by decide

theorem witness_ScheduleRecurrence : 0 < 16 ∧ 15 < 16 ∧ (16 ≤ 16 ∧ 16 < 80) ∧ (16 ≤ 79 ∧ 79 < 80) := by decide

/-- The working variables of the rounds exist for every chaining state and block. -/
theorem witness_CompressIsEightyRounds :
    ∃ vs : Nat → Vars, vs 0 = Vars.start sha1IV ∧
      ∀ t, t < 80 → vs (t + 1) =
        { a := rotl (vs t).a 5 + roundF t (vs t).b (vs t).c (vs t).d + (vs t).e + roundK t
            + (schedule abcBlock).getD t 0
          b := (vs t).a
          c := rotl (vs t).b 30
          d := (vs t).c
          e := (vs t).d } :=
  ⟨fun n => Nat.rec (Vars.start sha1IV) (fun t v => round t ((schedule abcBlock).getD t 0) v) n, rfl, fun _ _ => rfl⟩

theorem witness_DatapathsComputeCompress :
    (RoundStyle.iterative 1).ok = true ∧ (RoundStyle.iterative 80).ok = true ∧ RoundStyle.pipeline80.ok = true ∧
    (RoundStyle.iterative 3).ok = false := by decide

theorem witness_StreamingLaw : ([[0x61], [], [0x62, 0x63]] : List (List Byte)).flatten.length ≤ Config.lmax := by decide

/-- The empty message, a piece of no bytes, and a full piece. -/
theorem witness_StreamingLaw_commands :
    (piecesOk [] = true ∧ (piecesBytes []).length ≤ Config.lmax) ∧
    (let ms : List Piece := [{ din := din [], count := 0 }, { din := din [0x61626364], count := 64 }]
     piecesOk ms = true ∧ (piecesBytes ms).length ≤ Config.lmax) := by decide +kernel

/-- Two contexts that differ in the first byte beyond BUFCNT. -/
theorem witness_BufferTailIsMeaningless :
    let c := hashCtx sha1IV [0x61] 1
    let c' : HashCtx := { c with buf := c.buf.set 1 0xFF }
    c ≠ c' ∧ c.h = c'.h ∧ c.bufcnt = c'.bufcnt ∧ c.len = c'.len ∧
      ∀ k : Fin 64, k.val < c.bufcnt.val → c.buf[k] = c'.buf[k] := by decide +kernel

theorem witness_AbsorbWithoutFill :
    let s := machine (withCtx (context .sha sha1IV (List.replicate 63 0x61) 63 [])) []
    s.block.ctx.hash.bufcnt.val + (0 : Byte).toNat < 64 ∧
    Block.reset.ctx.hash.bufcnt.val + (63 : Byte).toNat < 64 := by decide +kernel

theorem witness_AbsorbWithFill :
    let s := machine (withCtx (context .hmsg sha1IV (List.replicate 63 0x61) 127 key0B)) []
    ((1 : Byte).toNat ≤ 64 ∧ 64 ≤ s.block.ctx.hash.bufcnt.val + (1 : Byte).toNat) ∧
    ((64 : Byte).toNat ≤ 64 ∧ 64 ≤ s.block.ctx.hash.bufcnt.val + (64 : Byte).toNat) ∧
    64 ≤ Block.reset.ctx.hash.bufcnt.val + (64 : Byte).toNat := by decide +kernel

theorem witness_ShaFinalPadsAndOutputs :
    (context .sha sha1IV [] 64 []).hash.bufcnt.val ≤ 55 ∧
    (context .sha sha1IV (List.replicate 55 0) 55 []).hash.bufcnt.val ≤ 55 ∧
    56 ≤ (context .sha sha1IV (List.replicate 56 0) 56 []).hash.bufcnt.val ∧
    56 ≤ (context .sha sha1IV (List.replicate 63 0) 63 []).hash.bufcnt.val := by decide +kernel

/-- The context of a key of 65 bytes 0xAA (M12). -/
def longKeyCtx : Context :=
  { hash := hashCtx #v[0xF90BA1B5, 0x0FF0AEA0, 0x54242251, 0x212CDD93, 0xF4A4EFD5] [0xAA] 65
    keybuf := Vector.replicate 64 0xAA
    keylen := 65
    phase := .hkey }

theorem witness_HmacKeyHoldsOrHashes :
    let empty := context .hkey sha1IV [] 0 []
    let full := context .hkey sha1IV [] 0 (List.replicate 64 0xAA)
    (empty.keylen.toNat + (64 : Byte).toNat ≤ 64 ∧ empty.keylen.toNat + (64 : Byte).toNat ≤ Config.lmax) ∧
    full.keylen.toNat + (0 : Byte).toNat ≤ 64 ∧
    (full.keylen.toNat ≤ 64 ∧ 64 < full.keylen.toNat + (1 : Byte).toNat ∧
      full.keylen.toNat + (1 : Byte).toNat ≤ Config.lmax ∧ (1 : Byte).toNat ≤ 64) ∧
    (64 < longKeyCtx.keylen.toNat ∧ longKeyCtx.keylen.toNat + (64 : Byte).toNat ≤ Config.lmax) := by decide +kernel

theorem witness_HmacStartAbsorbsInnerPad :
    (context .hkey sha1IV [] 0 []).keylen.toNat ≤ 64 ∧
    (context .hkey sha1IV [] 0 (List.replicate 64 0xAA)).keylen.toNat ≤ 64 ∧ 64 < longKeyCtx.keylen.toNat := by
  decide +kernel

/-- A key of 80 bytes in two pieces and a message of three bytes. -/
theorem witness_HmacLaw :
    let ks : List Piece := [{ din := Vector.replicate 16 0xAAAAAAAA, count := 64 },
      { din := Vector.replicate 16 0xAAAAAAAA, count := 16 }]
    let ms : List Piece := [{ din := din [0x61626300], count := 3 }, { din := din [], count := 0 }]
    piecesOk ks = true ∧ piecesOk ms = true ∧ (piecesBytes ks).length ≤ Config.lmax ∧
      64 + (piecesBytes ms).length ≤ Config.lmax := by decide +kernel

theorem witness_TotpGenResult :
    (1 ≤ (totpReady 59).digits.toNat ∧ (totpReady 59).digits.toNat ≤ 9 ∧ (totpReady 59).interval ≠ 0) ∧
    (1 ≤ (1 : BitVec 4).toNat ∧ (9 : BitVec 4).toNat ≤ 9) := by decide +kernel

theorem witness_TotpLaw :
    let ks : List Piece := [{ din := din [0x31323334, 0x35363738, 0x39303132, 0x33343536, 0x37383930], count := 20 }]
    let s := machine { Block.reset with ts := 59, digits := 8 } []
    piecesOk ks = true ∧ (piecesBytes ks).length ≤ Config.lmax ∧ 1 ≤ s.block.digits.toNat ∧ s.block.digits.toNat ≤ 9 ∧
      s.block.interval ≠ 0 := by decide +kernel

/-- T8: the timestamps 30 and 59. -/
theorem witness_StepBoundary :
    let s := machine (totpReady 30) []
    let s' := machine (totpReady 59) []
    s'.block.ctx = s.block.ctx ∧ s'.block.digits = s.block.digits ∧ s'.block.interval = s.block.interval ∧
      s.block.interval ≠ 0 ∧
      s'.block.ts.toNat / s.block.interval.toNat = s.block.ts.toNat / s.block.interval.toNat ∧
      (blockOf (exec .totpGen s)).isSome = true ∧ (blockOf (exec .totpGen s')).isSome = true := by decide +kernel

theorem witness_TotpTruncResult :
    1 ≤ Block.reset.digits.toNat ∧ Block.reset.digits.toNat ≤ 9 ∧
    1 ≤ (writeReg .cfg 1 Block.reset).digits.toNat ∧ (writeReg .cfg 9 Block.reset).digits.toNat ≤ 9 := by decide

theorem witness_TruncationBounds :
    (1 ≤ (1 : BitVec 4).toNat ∧ (1 : BitVec 4).toNat ≤ 9) ∧ (1 ≤ (9 : BitVec 4).toNat ∧ (9 : BitVec 4).toNat ≤ 9) ∧
    (0 < (1 : BitVec 4).toNat ∧ 8 < (9 : BitVec 4).toNat) ∧ ((1 : BitVec 4).toNat ≤ 1 ∧ (9 : BitVec 4).toNat ≤ 11) := by
  decide

theorem witness_CodeStringIsDecimal :
    (1 ≤ (1 : BitVec 4).toNat ∧ (1 : BitVec 4).toNat ≤ 9) ∧ (1 ≤ (9 : BitVec 4).toNat ∧ (9 : BitVec 4).toNat ≤ 9) := by
  decide

theorem witness_EngineStepRunsPending :
    (machine busy [.engine]).inputs = .engine :: [] ∧ (machine busy [.engine]).block.pending = some 0x00000001 ∧
    decode 0x00000001 = .ok .shaInit ∧ (machine busy []).inputs = [] ∧
    (machine Block.reset [.engine]).inputs = .engine :: [] ∧ (machine Block.reset [.engine]).block.pending = none ∧
    State.reset.inputs = [] ∧ State.reset.block.pending = none := ⟨rfl, rfl, rfl, rfl, rfl, rfl, rfl, rfl⟩

theorem witness_HostStepAccesses :
    (0x00 : BitVec 8).toNat % 4 = 0 ∧ (0xFC : BitVec 8).toNat % 4 = 0 ∧
    (machine Block.reset [.host (.write 0xFC 32 1)]).inputs = .host (.write 0xFC 32 1) :: [] ∧
    (machine busy [.host (.read 0x00 32)]).inputs = .host (.read 0x00 32) :: [] := by decide

theorem witness_BadAccessIsBusError :
    (machine busy [.host (.write 0x40 8 5)]).inputs = .host (.write 0x40 8 5) :: [] ∧ 8 ≠ 32 ∧
    (machine busy [.host (.read 0x42 32)]).inputs = .host (.read 0x42 32) :: [] ∧ (0x42 : BitVec 8).toNat % 4 ≠ 0 := by
  decide

/-- Every command answers a next state on the reset block, so the frame and the phase of each are about a real one. -/
theorem witness_CommandFrame (n : Byte) :
    ∀ i ∈ [Instr.shaInit, .shaUpdate n, .shaFinal, .shaCompress, .shaSeth, .hmacInit, .hmacKey n, .hmacStart, .hmacMsg n,
      .hmacFinal, .totpGen, .totpTrunc], ∃ t, exec i State.reset = .next t := by
  intro i _; cases i <;> exact ⟨_, rfl⟩

theorem witness_PhaseAfterCommand : ∃ t, exec .hmacStart (machine (totpReady 0) []) = .next t := ⟨_, rfl⟩

/-- The longest message that takes three more bytes (E16). -/
theorem witness_CommandAccepted :
    (Block.reset.pending = none ∧ Block.reset.err = .noError ∧ decode 0x00000022 = .ok .totpTrunc ∧
      phaseLegal .totpTrunc Block.reset.ctx.phase ∧ 1 ≤ Block.reset.digits.toNat ∧ Block.reset.digits.toNat ≤ 9 ∧
      lengthLegal .totpTrunc Block.reset) ∧
    (decode 0x00000021 = .ok .totpGen ∧ phaseLegal .totpGen (totpReady 59).ctx.phase ∧ (totpReady 59).interval ≠ 0 ∧
      lengthLegal .totpGen (totpReady 59)) ∧
    (decode 0x00000302 = .ok (.shaUpdate 3) ∧
      lengthLegal (.shaUpdate 3) (withCtx (context .sha sha1IV (List.replicate 60 0) 0x1FFFFFFFFFFFFFFC []))) := by
  refine ⟨⟨rfl, rfl, rfl, trivial, by decide, by decide, ?_⟩, ⟨rfl, rfl, by decide, ?_⟩, ⟨rfl, ?_⟩⟩ <;> intro n <;>
    refine ⟨fun h => ?_, fun h => ?_⟩
  all_goals first
    | (rcases h with h | h
       · first | (cases h; decide +kernel) | cases h
       · cases h)
    | cases h

theorem witness_ErrorPriority :
    (busyError Block.reset).pending = none ∧ (busyError Block.reset).err ≠ .noError ∧
    Block.reset.pending = none ∧ Block.reset.err = .noError ∧ decode 0x00000000 = .error .reservedOpcode ∧
    (decode 0x00000002 = .ok (.shaUpdate 0) ∧ ¬ phaseLegal (.shaUpdate 0) Block.reset.ctx.phase) := by
  exact ⟨rfl, by decide, rfl, rfl, rfl, rfl, show ¬ Block.reset.ctx.phase = Phase.sha by decide⟩

theorem witness_ErrorPriority_digits :
    decode 0x00000022 = .ok .totpTrunc ∧ phaseLegal .totpTrunc Block.reset.ctx.phase ∧ (0 : BitVec 4).toNat = 0 ∧
      10 ≤ (10 : BitVec 4).toNat ∧ 10 ≤ (15 : BitVec 4).toNat := ⟨rfl, trivial, by decide⟩

theorem witness_ErrorPriority_interval :
    let b : Block := { totpReady 59 with interval := 0 }
    decode 0x00000021 = .ok .totpGen ∧ phaseLegal .totpGen b.ctx.phase ∧ b.interval = 0 ∧
      1 ≤ b.digits.toNat ∧ b.digits.toNat ≤ 9 := ⟨rfl, rfl, rfl, by decide, by decide⟩

/-- One byte too many: LEN = 2^61 − 3 and a chunk of 3 bytes. -/
theorem witness_ErrorPriority_length :
    let c : Context := { Context.reset with hash := { HashCtx.reset with len := 0x1FFFFFFFFFFFFFFD }, phase := .sha }
    decode 0x00000302 = .ok (.shaUpdate 3) ∧ phaseLegal (.shaUpdate 3) (withCtx c).ctx.phase ∧
      ¬ lengthLegal (.shaUpdate 3) (withCtx c) := by
  refine ⟨rfl, rfl, fun h => ?_⟩
  have bound := (h 3).1 (.inl rfl)
  revert bound
  decide +kernel

theorem witness_RejectionChangesNothing : Block.reset.pending = none := rfl

/-- A write of ERRCLR changes ERR; a hardware reset does too. -/
theorem witness_FirstErrorIsKept :
    let b : Block := { Block.reset with err := .sequence }
    b.err ≠ .noError ∧
    (blockOf (step (machine b [.host (.write 0x00 32 2)]))).map (·.err) = some .noError ∧
    (blockOf (step (machine b [.hardReset]))).map (·.err) = some .noError := by decide

theorem witness_BusyWriteIgnored :
    busy.pending ≠ none ∧ busy.err = .noError ∧ ({ busy with err := .illegal } : Block).pending ≠ none ∧
    ({ busy with err := .illegal } : Block).err ≠ .noError := by decide

theorem witness_CtrlWrite :
    (7 : Word).toNat % 2 = 1 ∧ ((2 : Word).toNat % 2 = 0 ∧ (2 : Word).toNat / 2 % 2 = 1) ∧
    ((4 : Word).toNat % 2 = 0 ∧ (4 : Word).toNat / 2 % 2 = 0) := by decide

theorem witness_StatusWrite : (2 : Word).toNat / 2 % 2 = 1 ∧ (0xFFFFFFFD : Word).toNat / 2 % 2 = 0 := by decide

theorem witness_WriteReadBack :
    Block.reset.pending = none ∧ (0 : Fin 16) ≠ 15 ∧ (0xFFFFFFFE : Word).toNat % 2 = 0 ∧ (5 : Word).toNat % 2 = 1 := by decide

theorem witness_TimestampHalves : Block.reset.pending = none := rfl

theorem witness_ReadOnlyIgnoresWrites :
    regAt 0x1C = .counterLo ∧ regAt 0x2C = .codeStr 0 ∧ regAt 0x90 = .digest 4 ∧ regAt 0xB0 = .hstate 4 ∧
    regAt 0xFC = .reserved := by decide

theorem witness_RegisterMap :
    ((0x94 : BitVec 8).toNat % 4 = 0 ∧ 0x94 ≤ (0x94 : BitVec 8).toNat ∧ (0x9C : BitVec 8).toNat < 0xA0) ∧
    (0xB4 ≤ (0xB4 : BitVec 8).toNat ∧ (0xBC : BitVec 8).toNat < 0xC0) ∧ 0xC4 ≤ (0xC4 : BitVec 8).toNat ∧
    0xC4 ≤ (0xFC : BitVec 8).toNat := by decide

theorem witness_ResultRegisters : (totpReady 59).pending = none := rfl

/-- Two busy blocks with different digests. -/
theorem witness_BusyReadsHideResults :
    let b' : Block := { busy with digest := digestT1, trunc := 7 }
    busy.pending ≠ none ∧ b'.pending ≠ none ∧ busy.irqEn = b'.irqEn ∧ busy.done = b'.done ∧ busy.err = b'.err ∧
      busy.digits = b'.digits ∧ busy.interval = b'.interval ∧ busy.ts = b'.ts ∧ busy.din = b'.din ∧
      busy.digest ≠ b'.digest := by decide

theorem witness_InterruptLine :
    ({ Block.reset with irqEn := true } : Block).irqEn = true ∧ ({ Block.reset with done := true } : Block).done = true ∧
    ((4 : Word).toNat % 2 = 0 ∧ (4 : Word).toNat / 4 % 2 = 1) ∧ (2 : Word).toNat / 2 % 2 = 1 ∧
    (3 : Word).toNat / 4 % 2 = 0 := by decide

theorem witness_BothResets :
    (machine busy [.hardReset]).inputs = .hardReset :: [] ∧
    (machine busy [.host (.write 0x00 32 0xFFFFFFFF)]).inputs = .host (.write 0x00 32 0xFFFFFFFF) :: [] ∧
    (0xFFFFFFFF : Word).toNat % 2 = 1 := by decide

/-- A good state with a command pending (used below). -/
theorem busy_inv : busy.Inv where
  bufcnt_open := fun h => absurd rfl h
  bufcnt_idle := fun _ => rfl
  len_le := by decide
  keylen_le := by decide
  key_cleared := fun _ => ⟨rfl, rfl⟩
  key_held := fun h => by cases h
  key_hashed := fun h => by cases h
  msg_len := fun h => by cases h
  trunc_lt := by decide
  code_lt := by decide
  pending_ok := rfl

theorem witness_StepKeepsInvariant :
    (machine busy [.engine]).Inv ∧ ∃ t, step (machine busy [.engine]) = .next t := ⟨busy_inv, _, rfl⟩

theorem witness_StepNeverSticks :
    (machine busy [.engine]).Inv ∧ ∀ x, (machine busy [.engine]).inputs.head? = some x → x.ok = true :=
  ⟨busy_inv, fun x h => by cases h; rfl⟩

theorem witness_OnlyItsWritersWrite : ∃ t, step (machine busy [.host (.write 0x40 32 1)]) = .next t := ⟨_, rfl⟩

/-- A command pending, a poll, a write to a frozen register and an IRQ enable before the engine moves. -/
theorem witness_EffectIgnoresInterleaving :
    let before : List Input := [.host (.read 0x04 32), .host (.write 0x40 32 1), .host (.write 0x00 32 4)]
    let s := machine busy (before ++ .engine :: [])
    s.block.pending = some 0x00000001 ∧ decode 0x00000001 = .ok .shaInit ∧ s.inputs = before ++ .engine :: [] ∧
      ∀ x ∈ before, x.quiet = true := ⟨rfl, rfl, rfl, by decide⟩

theorem witness_AcceptedCommandCompletes :
    let s := machine busy [.host (.read 0x04 32), .engine]
    s.Inv ∧ s.block.pending ≠ none ∧ ∀ x ∈ s.inputs, x.ok = true := ⟨busy_inv, by decide, by decide⟩

theorem witness_InstancesShareNothing :
    let p : Platform := [{ page := 0, state := State.reset }, { page := 2, state := { machine busy [] with drawSource := 2 } }]
    p.ok = true ∧ ∃ q, p.stepAt 1 = .next q := ⟨rfl, _, rfl⟩

theorem witness_CompressionCounts :
    (let c := hashCtx sha1IV (List.replicate 55 0) 119; c.bufcnt.val = c.len.toNat % 64 ∧ c.bufcnt.val ≤ 55) ∧
    (let c := hashCtx sha1IV (List.replicate 56 0) 120; c.bufcnt.val = c.len.toNat % 64 ∧ ¬ c.bufcnt.val ≤ 55) ∧
    (64 : Byte).toNat ≤ 64 ∧ (withCtx (context .hkey sha1IV [] 0 (List.replicate 64 0xAA))).ctx.keylen.toNat ≤ 64 := by
  decide +kernel

/-- Key lengths at the bounds of the clauses: 64 bytes held and one to come, and 119 and 120 bytes hashed. -/
theorem witness_CompressionCounts_key :
    (let c := context .hkey sha1IV [] 0 (List.replicate 64 0xAA)
     c.keylen.toNat ≤ 64 ∧ 64 < c.keylen.toNat + (1 : Byte).toNat ∧ c.hash.bufcnt.val = 0) ∧
    (let c := context .hkey sha1IV (List.replicate 55 0) 119 (List.replicate 119 0xAA)
     64 < c.keylen.toNat ∧ c.hash.bufcnt.val = c.keylen.toNat % 64 ∧ c.keylen.toNat % 64 ≤ 55) ∧
    (let c := context .hkey sha1IV (List.replicate 56 0) 120 (List.replicate 120 0xAA)
     64 < c.keylen.toNat ∧ c.hash.bufcnt.val = c.keylen.toNat % 64 ∧ ¬ c.keylen.toNat % 64 ≤ 55) := by decide +kernel

end Sys2Proof.Tests
end

section
/-! The register window (10_state.md R22 to R45): the bits of a written word, STATUS as a number, and what reads and
writes of the registers answer. -/

namespace Sys2Proof.Machine

/-! ### Bits of a word -/

/-- Bit i of a word, by its number. -/
theorem getLsbD_eq_decide (v : Word) (i : Nat) : v.getLsbD i = decide (v.toNat / 2 ^ i % 2 = 1) :=
  Nat.testBit_eq_decide_div_mod_eq

theorem getLsbD_of_odd {v : Word} {i : Nat} (h : v.toNat / 2 ^ i % 2 = 1) : v.getLsbD i = true := by
  rw [getLsbD_eq_decide, h]; rfl

theorem getLsbD_of_even {v : Word} {i : Nat} (h : v.toNat / 2 ^ i % 2 = 0) : v.getLsbD i = false := by
  rw [getLsbD_eq_decide, h]; rfl

theorem flagBit_toNat (f : Bool) : (flagBit f).toNat = f.toNat := by cases f <;> rfl

theorem ctrlWord_eq (b : Block) : ctrlWord b = if b.irqEn then 4 else 0 := by
  unfold ctrlWord; cases b.irqEn <;> rfl

/-! ### The fields of STATUS -/

/-- A flag is a field of one bit. -/
theorem flagBit_eq_setWidth (f : Bool) : flagBit f = (BitVec.ofBool f).setWidth 32 := by cases f <;> rfl

/-- A field put above the bits of `w` adds its value at its place. -/
theorem or_field_toNat {n a : Nat} {w : Word} (value : w.toNat = a) (x : BitVec n) (k : Nat) (low : a < 2 ^ k)
    (fits : k + n ≤ 32) : (w ||| x.setWidth 32 <<< k).toNat = a + x.toNat * 2 ^ k := by
  have small : x.toNat < 2 ^ 32 := Nat.lt_of_lt_of_le x.isLt (Nat.pow_le_pow_right (by omega) (by omega))
  have placed : x.toNat * 2 ^ k < 2 ^ 32 := calc
    x.toNat * 2 ^ k < 2 ^ n * 2 ^ k := Nat.mul_lt_mul_of_pos_right x.isLt (Nat.pow_pos (by omega))
    _ = 2 ^ (k + n) := by rw [← Nat.pow_add, Nat.add_comm]
    _ ≤ 2 ^ 32 := Nat.pow_le_pow_right (by omega) fits
  rw [BitVec.toNat_or, BitVec.toNat_shiftLeft, BitVec.toNat_setWidth, Nat.mod_eq_of_lt small, Nat.shiftLeft_eq,
    Nat.mod_eq_of_lt placed, Nat.or_comm, value, mul_pow_or _ _ _ low, Nat.add_comm]

/-- STATUS as a number (10_state.md R28). -/
theorem packStatus_toNat (busy done irq : Bool) (err : BitVec 4) (phase : BitVec 2) (bufcnt : BitVec 6) :
    (packStatus busy done irq err phase bufcnt).toNat
      = busy.toNat + done.toNat * 2 ^ 1 + irq.toNat * 2 ^ 2 + err.toNat * 2 ^ 4 + phase.toNat * 2 ^ 8
        + bufcnt.toNat * 2 ^ 16 := by
  have hb := busy.toNat_lt
  have hd := (BitVec.ofBool done).isLt
  have hi := (BitVec.ofBool irq).isLt
  have he := err.isLt
  have hp := phase.isLt
  have upToDone := or_field_toNat (flagBit_toNat busy) (BitVec.ofBool done) 1 (by omega) (by omega)
  have upToIrq := or_field_toNat upToDone (BitVec.ofBool irq) 2 (by omega) (by omega)
  have upToErr := or_field_toNat upToIrq err 4 (by omega) (by omega)
  have upToPhase := or_field_toNat upToErr phase 8 (by omega) (by omega)
  have upToBufcnt := or_field_toNat upToPhase bufcnt 16 (by omega) (by omega)
  rw [packStatus, flagBit_eq_setWidth done, flagBit_eq_setWidth irq, upToBufcnt, BitVec.toNat_ofBool,
    BitVec.toNat_ofBool]

/-- `n` bits of a word from bit `k` on, by their number. -/
theorem extractLsb'_eq_iff {n : Nat} (w : Word) (k : Nat) (x : BitVec n) :
    w.extractLsb' k n = x ↔ w.toNat / 2 ^ k % 2 ^ n = x.toNat := by
  rw [← BitVec.toNat_inj, BitVec.extractLsb'_toNat, Nat.shiftRight_eq_div_pow]

/-- A flag read back. -/
theorem getLsbD_eq_iff (w : Word) (k : Nat) (f : Bool) : w.getLsbD k = f ↔ w.toNat / 2 ^ k % 2 = f.toNat := by
  rw [getLsbD_eq_decide]
  cases f <;> simp

/-- Every field of STATUS reads back what was packed, and the reserved bits read 0 (10_state.md R28). -/
theorem packStatus_fields (busy done irq : Bool) (err : BitVec 4) (phase : BitVec 2) (bufcnt : BitVec 6) :
    let w := packStatus busy done irq err phase bufcnt
    w.getLsbD 0 = busy ∧ w.getLsbD 1 = done ∧ w.getLsbD 2 = irq ∧ w.extractLsb' 4 4 = err ∧
      w.extractLsb' 8 2 = phase ∧ w.extractLsb' 16 6 = bufcnt ∧ w.getLsbD 3 = false ∧
      w.extractLsb' 10 6 = 0 ∧ w.extractLsb' 22 10 = 0 := by
  have hb := busy.toNat_lt
  have hd := done.toNat_lt
  have hi := irq.toNat_lt
  have he := err.isLt
  have hp := phase.isLt
  have hc := bufcnt.isLt
  have zero6 : (0 : BitVec 6).toNat = 0 := rfl
  have zero10 : (0 : BitVec 10).toNat = 0 := rfl
  simp only [getLsbD_eq_iff, extractLsb'_eq_iff, packStatus_toNat, Bool.toNat_false, zero6, zero10]
  omega

/-- A read of STATUS: PHASE and BUFCNT are draws while BUSY = 1 (20_memory.md R69). -/
theorem statusWord_eq (b : Block) (d : Draw) :
    statusWord b d = packStatus b.busy b.done b.irq b.err.code (if b.busy then d.phase else b.ctx.phase.code)
      (if b.busy then d.bufcnt else BitVec.ofNat 6 b.ctx.hash.bufcnt.val) := by
  unfold statusWord; cases b.busy <;> rfl

/-! ### Reads -/

theorem readReg_of_not_busy (r : Reg) {b : Block} (d : Draw) (idle : b.pending = none) :
    readReg r b d = regValue r b d := by
  rw [readReg, (busy_eq_false_iff b).mpr idle]; rfl

/-- Registers that hold no result read their value whatever BUSY is (20_memory.md R69). -/
theorem readReg_not_result {r : Reg} (h : r.isResult = false) (b : Block) (d : Draw) :
    readReg r b d = regValue r b d := by
  rw [readReg, h, Bool.and_false]; rfl

@[simp] theorem readReg_ctrl (b : Block) (d : Draw) : readReg .ctrl b d = if b.irqEn then 4 else 0 :=
  (readReg_not_result rfl b d).trans (ctrlWord_eq b)

@[simp] theorem readReg_status (b : Block) (d : Draw) :
    readReg .status b d
      = packStatus b.busy b.done b.irq b.err.code (if b.busy then d.phase else b.ctx.phase.code)
          (if b.busy then d.bufcnt else BitVec.ofNat 6 b.ctx.hash.bufcnt.val) :=
  (readReg_not_result rfl b d).trans (statusWord_eq b d)

@[simp] theorem readReg_cfg (b : Block) (d : Draw) : readReg .cfg b d = b.digits.setWidth 32 :=
  readReg_not_result rfl b d

@[simp] theorem readReg_interval (b : Block) (d : Draw) : readReg .interval b d = b.interval :=
  readReg_not_result rfl b d

@[simp] theorem readReg_tsLo (b : Block) (d : Draw) : readReg .tsLo b d = lo32 b.ts := readReg_not_result rfl b d

@[simp] theorem readReg_tsHi (b : Block) (d : Draw) : readReg .tsHi b d = hi32 b.ts := readReg_not_result rfl b d

@[simp] theorem readReg_din (j : Fin 16) (b : Block) (d : Draw) : readReg (.din j) b d = b.din[j] :=
  readReg_not_result rfl b d

/-! ### Writes -/

/-- A write to CTRL acts whatever BUSY is (10_state.md R24). -/
theorem writeReg_ctrl (v : Word) (b : Block) : writeReg .ctrl v b = writeCtrl v b := writeReg_not_frozen _ _ _ rfl

/-- A write to STATUS acts whatever BUSY is (20_memory.md R70). -/
theorem writeReg_status (v : Word) (b : Block) : writeReg .status v b = writeStatus v b := writeReg_not_frozen _ _ _ rfl

theorem writeReg_of_idle (r : Reg) (v : Word) {b : Block} (idle : b.pending = none) :
    writeReg r v b = storeReg r v b := writeReg_of_not_busy r v b ((busy_eq_false_iff b).mpr idle)

/-- A write to STATUS keeps DONE where bit 1 is 0, and everything else (10_state.md R28). -/
theorem writeStatus_eq (v : Word) (b : Block) :
    writeStatus v b = { b with done := b.done && !v.getLsbD 1 } := by
  unfold writeStatus
  cases v.getLsbD 1 <;> simp

/-- SRST, bit 0 (10_state.md R25). -/
theorem writeCtrl_srst {v : Word} (srst : v.toNat % 2 = 1) (b : Block) : writeCtrl v b = Block.reset := by
  rw [writeCtrl, getLsbD_of_odd (by omega), if_pos rfl]

/-- With SRST = 0, ERRCLR is bit 1 and IRQ_EN bit 2 (10_state.md R26, R27). -/
theorem writeCtrl_of_even {v : Word} (even : v.toNat % 2 = 0) (b : Block) :
    writeCtrl v b = { b with
      err := if v.toNat / 2 % 2 = 1 then .noError else b.err
      irqEn := decide (v.toNat / 4 % 2 = 1) } := by
  rw [writeCtrl, getLsbD_of_even (by omega), getLsbD_eq_decide v 1, getLsbD_eq_decide v 2]
  by_cases errclr : v.toNat / 2 % 2 = 1 <;> simp [errclr, clearError]

/-! ### The obligations -/

/-- Settles O39, by the bits of the written word. -/
theorem ctrlWrite : Obligations.CtrlWrite := by
  intro b v
  rw [writeReg_ctrl]
  refine ⟨fun srst => writeCtrl_srst srst b, fun even errclr => ?_, fun even keep => ?_⟩
  · rw [writeCtrl_of_even even, if_pos errclr]
  · rw [writeCtrl_of_even even, if_neg (by omega)]

/-- Settles O40: bit 1 alone acts, on DONE alone. -/
theorem statusWrite : Obligations.StatusWrite := by
  intro b v
  rw [writeReg_status, writeStatus_eq]
  refine ⟨fun set => ?_, fun clear => ?_⟩
  · rw [getLsbD_of_odd (by omega), Bool.not_true, Bool.and_false]
  · rw [getLsbD_of_even (by omega), Bool.not_false, Bool.and_true]

/-- CFG keeps the low 4 bits of the written word (10_state.md R36). -/
theorem setWidth_4_32_toNat (v : Word) : ((v.setWidth 4).setWidth 32).toNat = v.toNat % 16 := by
  rw [BitVec.toNat_setWidth, BitVec.toNat_setWidth]; omega

/-- Settles O41: a read of an RW register is its field, and a write stores the field and no other. -/
theorem writeReadBack : Obligations.WriteReadBack := by
  intro b v d
  refine ⟨readReg_ctrl b d, fun even => ?ctrl, fun srst => ?srst, fun idle => ?idle⟩
  case ctrl =>
    rw [readReg_ctrl, writeReg_ctrl, writeCtrl_of_even even]
    obtain bit | bit := Nat.mod_two_eq_zero_or_one (v.toNat / 4) <;> simp [bit]
  case srst => rw [readReg_ctrl, writeReg_ctrl, writeCtrl_srst srst]; rfl
  case idle =>
    simp only [writeReg_of_idle _ _ idle, storeReg, readReg_cfg, readReg_interval, readReg_tsLo, readReg_tsHi,
      readReg_din, lo32_join64, hi32_join64, setWidth_4_32_toNat, true_and, and_true, and_self]
    intro j
    refine ⟨Vector.getElem_set_self j.isLt, fun k ne => ?_⟩
    exact Vector.getElem_set_ne j.isLt k.isLt fun e => ne (Fin.ext e.symm)

/-- Settles O42: a write to one half of TS joins it with the half that stands. -/
theorem timestampHalves : Obligations.TimestampHalves := by
  intro b hi lo idle
  rw [writeReg_of_idle .tsHi hi idle, writeReg_of_idle .tsLo lo idle,
    writeReg_of_idle .tsLo lo (b := storeReg .tsHi hi b) idle,
    writeReg_of_idle .tsHi hi (b := storeReg .tsLo lo b) idle]
  simp only [storeReg, hi32_join64, lo32_join64, join64_toNat, and_self]

/-- The offsets of the three gaps in the map are reserved (10_state.md R22, R23). -/
theorem regAt_reserved {off : BitVec 8}
    (gap : (0x94 ≤ off.toNat ∧ off.toNat < 0xA0) ∨ (0xB4 ≤ off.toNat ∧ off.toNat < 0xC0) ∨ 0xC4 ≤ off.toNat) :
    regAt off = .reserved := by
  simp (disch := omega) only [regAt, if_neg]

/-- Settles O44: the named offsets one by one, the gaps by their bounds. -/
theorem registerMap : Obligations.RegisterMap :=
  ⟨by decide, by decide, by decide, by decide, fun _ _ gap => regAt_reserved gap⟩

/-- Settles O45, by the fields of the packed word. -/
theorem statusLayout : Obligations.StatusLayout := by
  intro b d w
  obtain ⟨busy, done, irq, err, phase, bufcnt, reserved⟩ :=
    packStatus_fields b.busy b.done b.irq b.err.code (if b.busy then d.phase else b.ctx.phase.code)
      (if b.busy then d.bufcnt else BitVec.ofNat 6 b.ctx.hash.bufcnt.val)
  rw [show w = _ from readReg_status b d]
  refine ⟨busy, done, irq, err.trans ?_, phase.trans ?_, bufcnt, reserved⟩
  · cases b.err <;> rfl
  · cases b.ctx.phase <;> rfl

/-- Settles O46: with BUSY = 0 no read is a draw, and the 64-bit values are read by halves. -/
theorem resultRegisters : Obligations.ResultRegisters := by
  intro b d idle
  simp only [readReg_of_not_busy _ d idle]
  exact ⟨lo32_toNat _, hi32_toNat _, lo32_toNat _, hi32_toNat _, rfl, rfl, fun _ => rfl, fun _ => ⟨rfl, rfl⟩, rfl⟩

/-- Byte 4j + m of a view whose bytes are those of the words, as a number. -/
theorem byteView_getD {n m : Nat} (view : Vector Byte n) (ws : Vector Word m) (size : n = 4 * m)
    (bytes : ∀ k (hk : k < n), view[k] = byteOf (ws[k / 4]'(by omega)) (k % 4)) (j : Fin m) (i : Fin 4) :
    (view.toList.getD (4 * j.val + i.val) 0).toNat = ws[j].toNat / 2 ^ (24 - 8 * i.val) % 256 := by
  have lt : 4 * j.val + i.val < n := by omega
  rw [List.getD_eq_getElem _ _ (by rw [Vector.length_toList]; exact lt), Vector.getElem_toList, bytes _ lt,
    byteOf_toNat]
  simp only [show (4 * j.val + i.val) / 4 = j.val by omega, show (4 * j.val + i.val) % 4 = i.val by omega]
  rfl

/-- Byte m of `BE64`, as a number (00_scope.md R10). -/
theorem be64_getD_toNat (v : U64) (m : Fin 8) :
    ((be64 v).getD m.val 0).toNat = v.toNat / 2 ^ (56 - 8 * m.val) % 256 := by
  fin_cases m <;> simp [be64, Nat.shiftRight_eq_div_pow]

/-- Settles O49: each view's bytes as numbers, and the words packed back from them. -/
theorem byteViews : Obligations.ByteViews :=
  ⟨fun din => byteView_getD _ din rfl (dinBytes_getElem din),
    fun d => byteView_getD _ d rfl (digestBytes_getElem d),
    fun d => byteView_getD _ d rfl (strBytes_getElem d),
    fun v => ⟨be64_length v, be64_getD_toNat v⟩,
    blockWords_dinBytes, digestWords_digestBytes, digestBytes_digestWords, strBytes_strWords⟩

/-- Settles O51: after reset BUSY = 0, so every register reads its field of the reset block. -/
theorem resetValues : Obligations.ResetValues := by
  refine ⟨fun d => ?_, rfl, rfl, rfl, rfl, rfl, rfl, rfl, rfl, rfl⟩
  simp only [readReg_of_not_busy _ d (show State.reset.block.pending = none from rfl)]
  exact ⟨rfl, rfl, rfl, rfl, rfl, rfl, rfl, rfl, rfl, rfl, rfl, rfl, rfl, rfl, rfl,
    fun j => Vector.getElem_replicate j.isLt, fun j => Vector.getElem_replicate j.isLt,
    fun k => Vector.getElem_replicate k.isLt, rfl, rfl, rfl, rfl, rfl⟩

end Sys2Proof.Machine
end

section
/-! Bytes of BUF beyond BUFCNT (10_state.md R46): hash contexts that differ only there stay so and hash alike. -/

namespace Sys2Proof.Machine

/-- The contexts differ at most in BUF beyond BUFCNT. -/
structure HashCtx.SameHeld (c c' : HashCtx) : Prop where
  h : c.h = c'.h
  bufcnt : c.bufcnt = c'.bufcnt
  len : c.len = c'.len
  buf : ∀ k (lt : k < c.bufcnt.val), c.buf[k]'(by omega) = c'.buf[k]'(by omega)

/-- The buffer up to and with the byte stored at BUFCNT is the same in both. -/
theorem HashCtx.SameHeld.stored {c c' : HashCtx} (same : c.SameHeld c') (x : Byte) (k : Nat)
    (le : k ≤ c.bufcnt.val) :
    (c.buf.set c.bufcnt.val x)[k]'(by omega) = (c'.buf.set c'.bufcnt.val x)[k]'(by omega) := by
  rw [Vector.getElem_set, Vector.getElem_set, ← same.bufcnt]
  split
  · rfl
  · exact same.buf k (by omega)

theorem HashCtx.SameHeld.padByte {c c' : HashCtx} (same : c.SameHeld c') (x : Byte) :
    (Machine.padByte x c).SameHeld (Machine.padByte x c') := by
  have cnt : c'.bufcnt.val = c.bufcnt.val := congrArg Fin.val same.bufcnt.symm
  by_cases room : c.bufcnt.val + 1 < 64
  · rw [padByte_of_room x c room, padByte_of_room x c' (cnt ▸ room)]
    exact ⟨same.h, Fin.ext (by simp only [cnt]), same.len, fun k lt => same.stored x k (Nat.lt_succ_iff.mp lt)⟩
  · have full : c.bufcnt.val = 63 := by omega
    have block : c.buf.set c.bufcnt.val x = c'.buf.set c'.bufcnt.val x :=
      Vector.ext fun k lt => same.stored x k (by omega)
    rw [padByte_of_full x c full, padByte_of_full x c' (cnt.trans full), same.h, block]
    exact ⟨rfl, rfl, same.len, fun k lt => absurd lt (Nat.not_lt_zero k)⟩

theorem HashCtx.SameHeld.padBytes {c c' : HashCtx} (same : c.SameHeld c') (s : List Byte) :
    (Machine.padBytes s c).SameHeld (Machine.padBytes s c') := by
  induction s generalizing c c' with
  | nil => exact same
  | cons x s ih => exact ih (same.padByte x)

theorem HashCtx.SameHeld.absorb {c c' : HashCtx} (same : c.SameHeld c') (s : List Byte) :
    (Machine.absorb s c).SameHeld (Machine.absorb s c') := by
  obtain ⟨h, bufcnt, -, buf⟩ := same.padBytes s
  rw [absorb_eq_padBytes, absorb_eq_padBytes, same.len]
  exact ⟨h, bufcnt, rfl, buf⟩

/-- The padding bytes depend on BUFCNT and LEN alone. -/
theorem HashCtx.SameHeld.shaFinal {c c' : HashCtx} (same : c.SameHeld c') :
    (Machine.shaFinal c).SameHeld (Machine.shaFinal c') := by
  have bytes : finalBytes c = finalBytes c' := by rw [finalBytes, finalBytes, same.bufcnt, same.len]
  rw [shaFinal_eq_padBytes, shaFinal_eq_padBytes, bytes]
  exact same.padBytes _

/-- Settles O10: what is held of the message is kept the same, byte by byte. -/
theorem bufferTailIsMeaningless : Obligations.BufferTailIsMeaningless := by
  intro c c' s h bufcnt len buf
  have same : c.SameHeld c' := ⟨h, bufcnt, len, fun k lt => buf ⟨k, by omega⟩ lt⟩
  obtain ⟨h, bufcnt, len, buf⟩ := same.absorb s
  exact ⟨h, bufcnt, len, fun k lt => buf k lt, (same.absorb s).shaFinal.h⟩

end Sys2Proof.Machine
end

section
/-! The invariants of the block (10_state.md R47 to R50, 41_hmac.md R144, 42_totp.md R183, 20_memory.md R67): they hold
after reset, and host writes and completions keep them. -/

namespace Sys2Proof.Machine

/-! ### The invariants of the context -/

/-- The clauses of `Block.Inv` that speak of the context alone. -/
structure Context.Inv (c : Context) : Prop where
  bufcnt_open : c.phase ≠ .idle → c.hash.bufcnt.val = c.hash.len.toNat % 64
  bufcnt_idle : c.phase = .idle → c.hash.bufcnt.val = 0
  len_le : c.hash.len.toNat ≤ Config.lmax
  keylen_le : c.keylen.toNat ≤ Config.lmax
  key_cleared : c.phase = .idle ∨ c.phase = .sha → c.keybuf = zeros64 ∧ c.keylen = 0
  key_held : c.phase = .hkey → c.keylen.toNat ≤ 64 →
    c.hash.h = sha1IV ∧ c.hash.len = 0 ∧ ∀ i : Fin 64, c.keylen.toNat ≤ i.val → c.keybuf[i] = 0
  key_hashed : c.phase = .hkey → 64 < c.keylen.toNat → c.hash.len = c.keylen
  msg_len : c.phase = .hmsg → 64 ≤ c.hash.len.toNat

theorem Block.inv_iff (b : Block) :
    b.Inv ↔ b.ctx.Inv ∧ b.trunc.toNat < 2 ^ 31 ∧ b.code.toNat < 10 ^ 9 ∧ b.pendingOk = true := by
  constructor
  · rintro ⟨h1, h2, h3, h4, h5, h6, h7, h8, trunc, code, pend⟩
    exact ⟨⟨h1, h2, h3, h4, h5, h6, h7, h8⟩, trunc, code, pend⟩
  · rintro ⟨⟨h1, h2, h3, h4, h5, h6, h7, h8⟩, trunc, code, pend⟩
    exact ⟨h1, h2, h3, h4, h5, h6, h7, h8, trunc, code, pend⟩

/-- A context just opened, or after reset. -/
theorem Context.inv_fresh (p : Phase) (ne : p ≠ .hmsg) :
    Context.Inv { hash := shaInit, keybuf := zeros64, keylen := 0, phase := p } where
  bufcnt_open _ := rfl
  bufcnt_idle _ := rfl
  len_le := Nat.zero_le _
  keylen_le := Nat.zero_le _
  key_cleared _ := ⟨rfl, rfl⟩
  key_held _ _ := ⟨rfl, rfl, fun i _ => Vector.getElem_replicate i.isLt⟩
  key_hashed _ long := absurd long (Nat.not_lt_zero 64)
  msg_len h := absurd h ne

/-- A closed context: nothing in the buffer, no key. -/
theorem Context.inv_closed {c : Context} (phase : c.phase = .idle) (bufcnt : c.hash.bufcnt = 0)
    (len : c.hash.len.toNat ≤ Config.lmax) (keybuf : c.keybuf = zeros64) (keylen : c.keylen = 0) : c.Inv where
  bufcnt_open h := absurd phase h
  bufcnt_idle _ := congrArg Fin.val bufcnt
  len_le := len
  keylen_le := by rw [keylen]; exact Nat.zero_le _
  key_cleared _ := ⟨keybuf, keylen⟩
  key_held h := by rw [phase] at h; cases h
  key_hashed h := by rw [phase] at h; cases h
  msg_len h := by rw [phase] at h; cases h

/-- The chaining state is free in an open computation that hashes a message (40_sha1.md R117, R118). -/
theorem Context.Inv.with_h {c : Context} (inv : c.Inv) (sha : c.phase = .sha) (h : Vector Word 5) :
    Context.Inv { c with hash := { c.hash with h := h } } where
  bufcnt_open := inv.bufcnt_open
  bufcnt_idle := inv.bufcnt_idle
  len_le := inv.len_le
  keylen_le := inv.keylen_le
  key_cleared := inv.key_cleared
  key_held hkey := by rw [sha] at hkey; cases hkey
  key_hashed := inv.key_hashed
  msg_len := inv.msg_len

/-! ### Counts within LMAX -/

/-- A count that grows within LMAX does not wrap (40_sha1.md R113). -/
theorem add_ofNat_toNat (a : U64) (n : Nat) (le : a.toNat + n ≤ Config.lmax) :
    (a + BitVec.ofNat 64 n).toNat = a.toNat + n := by
  unfold Config.lmax at le
  rw [BitVec.toNat_add, BitVec.toNat_ofNat]
  omega

theorem operandBytes_length_le (b : Block) (n : Byte) : (operandBytes b n).length ≤ n.toNat := by
  rw [operandBytes_length]; exact Nat.min_le_left _ _

/-! ### The primitives keep them -/

/-- Message bytes absorbed within LMAX (40_sha1.md R108, R113). -/
theorem Context.Inv.absorb {c : Context} (inv : c.Inv) (s : List Byte) (msg : c.phase = .sha ∨ c.phase = .hmsg)
    (le : c.hash.len.toNat + s.length ≤ Config.lmax) :
    Context.Inv { c with hash := Machine.absorb s c.hash } := by
  have len : (Machine.absorb s c.hash).len.toNat = c.hash.len.toNat + s.length := by
    rw [absorb_len, add_ofNat_toNat _ _ le]
  have not_idle : c.phase ≠ .idle := by rcases msg with h | h <;> rw [h] <;> decide
  have not_hkey : c.phase ≠ .hkey := by rcases msg with h | h <;> rw [h] <;> decide
  have cnt := inv.bufcnt_open not_idle
  exact {
    bufcnt_open := fun _ => by
      show (Machine.absorb s c.hash).bufcnt.val = (Machine.absorb s c.hash).len.toNat % 64
      rw [absorb_bufcnt, len]; omega
    bufcnt_idle := fun idle => absurd idle not_idle
    len_le := len ▸ le
    keylen_le := inv.keylen_le
    key_cleared := inv.key_cleared
    key_held := fun hkey => absurd hkey not_hkey
    key_hashed := fun hkey => absurd hkey not_hkey
    msg_len := fun hmsg => by
      have := inv.msg_len hmsg
      show 64 ≤ (Machine.absorb s c.hash).len.toNat
      omega }

/-- In phase HKEY the clauses on BUFCNT, LEN and the key come to two cases: the key held, or hashed. -/
theorem Context.inv_hkey {c : Context} (hkey : c.phase = .hkey) (keylen_le : c.keylen.toNat ≤ Config.lmax)
    (held : c.keylen.toNat ≤ 64 → c.hash.bufcnt.val = 0 ∧ c.hash.h = sha1IV ∧ c.hash.len = 0 ∧
      ∀ i : Fin 64, c.keylen.toNat ≤ i.val → c.keybuf[i] = 0)
    (hashed : 64 < c.keylen.toNat → c.hash.bufcnt.val = c.keylen.toNat % 64 ∧ c.hash.len = c.keylen) : c.Inv := by
  have counts : c.hash.bufcnt.val = c.hash.len.toNat % 64 ∧ c.hash.len.toNat ≤ Config.lmax := by
    by_cases short : c.keylen.toNat ≤ 64
    · obtain ⟨cnt, -, len, -⟩ := held short
      rw [cnt, len]; exact ⟨rfl, Nat.zero_le _⟩
    · obtain ⟨cnt, len⟩ := hashed (by omega)
      rw [cnt, len]; exact ⟨rfl, keylen_le⟩
  exact {
    bufcnt_open := fun _ => counts.1
    bufcnt_idle := fun h => by rw [hkey] at h; cases h
    len_le := counts.2
    keylen_le := keylen_le
    key_cleared := fun h => by rw [hkey] at h; rcases h with h | h <;> cases h
    key_held := fun _ short => (held short).2
    key_hashed := fun _ long => (hashed long).2
    msg_len := fun h => by rw [hkey] at h; cases h }

/-- Key bytes received within LMAX: held, hashed, or passing the 64th (41_hmac.md R144). -/
theorem Context.Inv.keyBytes {c : Context} (inv : c.Inv) (s : List Byte) (hkey : c.phase = .hkey)
    (le : c.keylen.toNat + s.length ≤ Config.lmax) : (Machine.keyBytes s c).Inv := by
  have sum := add_ofNat_toNat c.keylen s.length le
  have no_wrap : c.keylen.toNat + s.length < 2 ^ 64 := by unfold Config.lmax at le; omega
  have cnt := inv.bufcnt_open (by rw [hkey]; decide)
  have keylen := keyBytes_keylen s c
  refine Context.inv_hkey (by rw [keyBytes_phase, hkey]) (by rw [keylen, sum]; exact le) ?held ?hashed
  case held =>
    intro short
    rw [keylen, sum] at short
    obtain ⟨h, len, zero⟩ := inv.key_held hkey (by omega)
    rw [keyBytes_of_room s c short]
    refine ⟨by rw [cnt, len]; rfl, h, len, fun i ge => ?_⟩
    rw [sum] at ge
    show (overwrite c.keybuf c.keylen.toNat s)[i.val] = 0
    rw [overwrite_getElem, if_neg (by omega)]
    exact zero i (by omega)
  case hashed =>
    intro long
    rw [keylen, sum] at long
    by_cases short : c.keylen.toNat ≤ 64
    · obtain ⟨-, len, -⟩ := inv.key_held hkey short
      rw [keyBytes_of_crossing s c short long no_wrap]
      refine ⟨?_, ?_⟩
      · show (Machine.absorb _ (Machine.absorb _ _)).bufcnt.val = (c.keylen + BitVec.ofNat 64 s.length).toNat % 64
        rw [absorb_bufcnt, absorb_bufcnt, Vector.length_toList, List.length_drop, cnt, len, sum,
          show (0 : U64).toNat = 0 from rfl]
        omega
      · show (Machine.absorb _ (Machine.absorb _ _)).len = c.keylen + BitVec.ofNat 64 s.length
        rw [absorb_len, absorb_len, Vector.length_toList, List.length_drop, len,
          show (0 : U64) + BitVec.ofNat 64 64 = 64 from rfl]
        apply BitVec.eq_of_toNat_eq
        rw [sum, BitVec.toNat_add, BitVec.toNat_ofNat, show (64 : U64).toNat = 64 from rfl]
        omega
    · rw [keyBytes_of_hashed s c (by omega) no_wrap]
      have len := inv.key_hashed hkey (by omega)
      refine ⟨?_, ?_⟩
      · show (Machine.absorb s c.hash).bufcnt.val = (c.keylen + BitVec.ofNat 64 s.length).toNat % 64
        rw [absorb_bufcnt, cnt, len, sum]
        omega
      · show (Machine.absorb s c.hash).len = c.keylen + BitVec.ofNat 64 s.length
        rw [absorb_len, len]

/-- The inner pad absorbed: K0 is held and LEN counts 64 bytes (41_hmac.md R145). -/
theorem Context.Inv.hmacStart {c : Context} (inv : c.Inv) :
    Context.Inv { Machine.hmacStart c with phase := .hmsg } := by
  obtain ⟨hold, len⟩ := hmacStart_holds c
  have cnt : (Machine.hmacStart c).hash.bufcnt.val = 0 := by rw [hold.bufcnt, Vector.length_toList]
  exact {
    bufcnt_open := fun _ => by rw [cnt, len]; rfl
    bufcnt_idle := fun h => by cases h
    len_le := by rw [len]; decide
    keylen_le := inv.keylen_le
    key_cleared := fun h => by rcases h with h | h <;> cases h
    key_held := fun h => by cases h
    key_hashed := fun h => by cases h
    msg_len := fun _ => by rw [len]; decide }

/-- The digest read out of a plain SHA-1 computation (40_sha1.md R116). -/
theorem Context.Inv.shaFinal {c : Context} (inv : c.Inv) (sha : c.phase = .sha) :
    Context.Inv { c with hash := Machine.shaFinal c.hash, phase := .idle } := by
  obtain ⟨keybuf, keylen⟩ := inv.key_cleared (.inr sha)
  exact Context.inv_closed rfl (shaFinal_bufcnt _) (by rw [shaFinal_len]; exact inv.len_le) keybuf keylen

/-- The outer hash clears the key (41_hmac.md R146). -/
theorem Context.inv_hmacFinal (c : Context) : Context.Inv { Machine.hmacFinal c with phase := .idle } :=
  Context.inv_closed rfl (hmacFinal_bufcnt c) (by rw [hmacFinal_len]; decide) rfl rfl

/-! ### Completions -/

/-- A command that passes its checks finds the phase and the count its primitive needs (30_encoding.md R85, R92). -/
theorem effect_ctx_inv {i : Instr} {b : Block} (inv : b.ctx.Inv) (ok : commandError i b = none) :
    (effect i b).ctx.Inv := by
  obtain ⟨phase, -, -, len⟩ := commandError_none ok
  cases i with
  | shaInit => exact Context.inv_fresh .sha (by decide)
  | shaUpdate n =>
    exact inv.absorb _ (.inl (by simpa [legal] using phase))
      (Nat.le_trans (Nat.add_le_add_left (operandBytes_length_le b n) _) len)
  | shaFinal => exact inv.shaFinal (by simpa [legal] using phase)
  | shaCompress => exact inv.with_h (by simpa [legal] using phase) _
  | shaSeth => exact inv.with_h (by simpa [legal] using phase) _
  | hmacInit => exact Context.inv_fresh .hkey (by decide)
  | hmacKey n =>
    exact inv.keyBytes _ (by simpa [legal] using phase)
      (Nat.le_trans (Nat.add_le_add_left (operandBytes_length_le b n) _) len)
  | hmacStart => exact inv.hmacStart
  | hmacMsg n =>
    exact inv.absorb _ (.inr (by simpa [legal] using phase))
      (Nat.le_trans (Nat.add_le_add_left (operandBytes_length_le b n) _) len)
  | hmacFinal => exact Context.inv_hmacFinal _
  | totpGen => exact Context.inv_hmacFinal _
  | totpTrunc => exact inv

/-- TRUNC and CODE are written by the two truncating commands only, or left as they were (42_totp.md R178). -/
theorem effect_truncates (i : Instr) (b : Block) :
    ((effect i b).trunc = b.trunc ∧ (effect i b).code = b.code ∧ (effect i b).codeStr = b.codeStr) ∨
    ((i = .totpGen ∨ i = .totpTrunc) ∧
      ∃ d, (effect i b).trunc = truncValue d ∧ (effect i b).code = codeOf (truncValue d) b.digits) := by
  cases i with
  | totpGen => exact .inr ⟨.inl rfl, _, rfl, rfl⟩
  | totpTrunc => exact .inr ⟨.inr rfl, _, rfl, rfl⟩
  | _ => exact .inl ⟨rfl, rfl, rfl⟩

/-- The completion of a command that passes its checks keeps the invariants. -/
theorem Block.Inv.complete_effect {i : Instr} {b : Block} (inv : b.Inv) (ok : commandError i b = none) :
    (complete (effect i b)).Inv := by
  obtain ⟨ctx, trunc, code, -⟩ := b.inv_iff.mp inv
  refine (Block.inv_iff _).mpr ⟨effect_ctx_inv ctx ok, ?_⟩
  simp only [complete_trunc, complete_code]
  obtain ⟨t, c, -⟩ | ⟨truncates, d, t, c⟩ := effect_truncates i b
  · rw [t, c]; exact ⟨trunc, code, rfl⟩
  · obtain ⟨-, digits, -, -⟩ := commandError_none ok
    have digits : digitsOk b.digits = true := digits (by rcases truncates with rfl | rfl <;> rfl)
    rw [t, c]; exact ⟨truncValue_lt d, codeOf_lt _ _ digits, rfl⟩

/-! ### Host writes -/

/-- The checks of R85 read the context, DIGITS and INTERVAL only. -/
theorem commandError_congr (i : Instr) {b b' : Block} (ctx : b'.ctx = b.ctx) (digits : b'.digits = b.digits)
    (interval : b'.interval = b.interval) : commandError i b' = commandError i b := by
  have length : lengthAfter i b' = lengthAfter i b := by cases i <;> simp [lengthAfter, ctx]
  rw [commandError, commandError, ctx, digits, interval, length]

theorem pendingOk_of_none {b : Block} (none : b.pending = none) : b.pendingOk = true := by
  rw [Block.pendingOk, none]

theorem pendingOk_of_some {b : Block} {v : Word} {i : Instr} (pending : b.pending = some v)
    (dec : decode v = .ok i) (ok : commandError i b = none) : b.pendingOk = true := by
  simp [Block.pendingOk, pending, dec, ok]

theorem pendingOk_congr {b b' : Block} (pending : b'.pending = b.pending) (ctx : b'.ctx = b.ctx)
    (digits : b'.digits = b.digits) (interval : b'.interval = b.interval) (ok : b.pendingOk = true) :
    b'.pendingOk = true := by
  cases held : b.pending with
  | none => exact pendingOk_of_none (pending.trans held)
  | some v =>
    obtain ⟨i, dec, good⟩ := pendingOk_some ok held
    exact pendingOk_of_some (pending.trans held) dec ((commandError_congr i ctx digits interval).trans good)

/-- A write to a register other than CMD leaves PENDING, unless it is a soft reset. -/
theorem storeReg_pending {r : Reg} (ne : r ≠ .cmd) (v : Word) (b : Block) :
    storeReg r v b = Block.reset ∨ (storeReg r v b).pending = b.pending := by
  cases r with
  | ctrl =>
    obtain ⟨-, e⟩ | ⟨-, -, e⟩ | ⟨-, -, e⟩ := writeCtrl_cases v b
    · exact .inl e
    · exact .inr (by rw [storeReg, e])
    · exact .inr (by rw [storeReg, e])
  | status => exact .inr (by rw [storeReg, writeStatus_eq])
  | cmd => exact absurd rfl ne
  | _ => exact .inr rfl

/-- With BUSY = 0, PENDING stays none or takes a word that passes the checks (30_encoding.md R85). -/
theorem storeReg_pendingOk (r : Reg) (v : Word) {b : Block} (idle : b.pending = none) :
    (storeReg r v b).pendingOk = true := by
  by_cases cmd : r = .cmd
  · subst cmd
    obtain ⟨-, e⟩ | ⟨-, code, -, e⟩ | ⟨-, i, dec, ok, e⟩ := presentCommand_cases v b
    · exact pendingOk_of_none (by rw [storeReg, e]; exact idle)
    · exact pendingOk_of_none (by rw [storeReg, e]; exact idle)
    · rw [storeReg, e]
      exact pendingOk_of_some (accept_pending v b) dec ((commandError_congr i rfl rfl rfl).trans ok)
  · obtain reset | same := storeReg_pending cmd v b
    · rw [reset]; rfl
    · exact pendingOk_of_none (same.trans idle)

/-- With BUSY = 1, PENDING and what the checks read are frozen, unless the write is a soft reset (20_memory.md R70). -/
theorem writeReg_busy_frame (r : Reg) (v : Word) {b : Block} (busy : b.busy = true) :
    writeReg r v b = Block.reset ∨
      ((writeReg r v b).pending = b.pending ∧ (writeReg r v b).ctx = b.ctx ∧
        (writeReg r v b).digits = b.digits ∧ (writeReg r v b).interval = b.interval) := by
  cases frozen : r.isFrozen with
  | true => rw [writeReg_frozen r v b busy frozen]; exact .inr ⟨rfl, rfl, rfl, rfl⟩
  | false =>
    obtain reset | ⟨-, -, -, -, -, ctx, -, digits, interval, -⟩ := writeReg_frame r v b
    · exact .inl reset
    · have ne : r ≠ .cmd ∧ r ≠ .cfg ∧ r ≠ .interval := by
        refine ⟨?_, ?_, ?_⟩ <;> rintro rfl <;> cases frozen
      have pending := storeReg_pending ne.1 v b
      rw [← writeReg_not_frozen r v b frozen] at pending
      exact pending.imp_right fun p => ⟨p, ctx, digits.resolve_right ne.2.1, interval.resolve_right ne.2.2⟩

theorem writeReg_pendingOk (r : Reg) (v : Word) {b : Block} (ok : b.pendingOk = true) :
    (writeReg r v b).pendingOk = true := by
  cases busy : b.busy with
  | false =>
    rw [writeReg_of_not_busy r v b busy]
    exact storeReg_pendingOk r v ((busy_eq_false_iff b).mp busy)
  | true =>
    obtain reset | ⟨pending, ctx, digits, interval⟩ := writeReg_busy_frame r v busy
    · rw [reset]; rfl
    · exact pendingOk_congr pending ctx digits interval ok

theorem Block.reset_inv : Block.reset.Inv :=
  (Block.inv_iff _).mpr ⟨Context.inv_fresh .idle (by decide), by decide, by decide, rfl⟩

/-- A host write keeps the invariants. -/
theorem Block.Inv.writeReg {b : Block} (inv : b.Inv) (r : Reg) (v : Word) : (Machine.writeReg r v b).Inv := by
  obtain ⟨ctx_inv, trunc_lt, code_lt, ok⟩ := b.inv_iff.mp inv
  obtain reset | ⟨-, -, trunc, code, -, ctx, -⟩ := writeReg_frame r v b
  · rw [reset]; exact Block.reset_inv
  · exact (Block.inv_iff _).mpr ⟨ctx ▸ ctx_inv, trunc ▸ trunc_lt, code ▸ code_lt, writeReg_pendingOk r v ok⟩

/-! ### The obligations -/

/-- Settles O53: the reset block has a closed, empty context and nothing pending. -/
theorem invariantAtReset : Obligations.InvariantAtReset := Block.reset_inv

/-- Settles O54, by what a step does to the block: nothing, a reset, a register write or a completion. -/
theorem stepKeepsInvariant : Obligations.StepKeepsInvariant := by
  intro s t inv next
  show t.block.Inv
  obtain same | reset | ⟨off, v, -, -, write⟩ | ⟨v, i, -, pending, dec, completion⟩ := step_block next
  · rw [same]; exact inv
  · rw [reset]; exact Block.reset_inv
  · rw [write]; exact inv.writeReg _ _
  · obtain ⟨j, dec', ok⟩ := pendingOk_some inv.pending_ok pending
    obtain rfl : i = j := Except.ok.inj (dec.symm.trans dec')
    rw [completion]; exact inv.complete_effect ok

end Sys2Proof.Machine
end

section
/-! Who writes what (10_state.md R39 to R43): the frame of a command's effect, and of a step. -/

namespace Sys2Proof.Machine

/-! ### The frame of a command: no command writes the host's registers -/

@[simp] theorem effect_din (i : Instr) (b : Block) : (effect i b).din = b.din := by cases i <;> rfl
@[simp] theorem effect_digits (i : Instr) (b : Block) : (effect i b).digits = b.digits := by cases i <;> rfl
@[simp] theorem effect_interval (i : Instr) (b : Block) : (effect i b).interval = b.interval := by cases i <;> rfl
@[simp] theorem effect_ts (i : Instr) (b : Block) : (effect i b).ts = b.ts := by cases i <;> rfl
@[simp] theorem effect_irqEn (i : Instr) (b : Block) : (effect i b).irqEn = b.irqEn := by cases i <;> rfl

/-- DIGEST is written by three commands (10_state.md R43). -/
theorem effect_digest (i : Instr) (b : Block) :
    (effect i b).digest = b.digest ∨ i = .shaFinal ∨ i = .hmacFinal ∨ i = .totpGen := by
  cases i with
  | shaFinal => exact .inr (.inl rfl)
  | hmacFinal => exact .inr (.inr (.inl rfl))
  | totpGen => exact .inr (.inr (.inr rfl))
  | _ => exact .inl rfl

/-- COUNTER is written by TOTP_GEN (10_state.md R40). -/
theorem effect_counter (i : Instr) (b : Block) : (effect i b).counter = b.counter ∨ i = .totpGen := by
  cases i with
  | totpGen => exact .inr rfl
  | _ => exact .inl rfl

/-- TOTP_TRUNC leaves the context. -/
theorem effect_ctx (i : Instr) (b : Block) : (effect i b).ctx = b.ctx ∨ i ≠ .totpTrunc := by
  by_cases trunc : i = .totpTrunc
  · subst trunc; exact .inl rfl
  · exact .inr trunc

/-- Settles O56, by what a step does to the block: nothing, a reset, a register write or a completion. -/
theorem onlyItsWritersWrite : Obligations.OnlyItsWritersWrite := by
  intro s t next b b' writes completes
  obtain same | reset | ⟨off, v, rest, input, write⟩ | ⟨v, i, turn, pending, dec, completion⟩ := step_block next
  · right
    simp only [b', b, same, true_or, and_self]
  · exact .inl reset
  · have wrote : ∀ P : Reg → Prop, P (regAt off) → writes P := fun _ p => ⟨off, v, rest, input, p⟩
    have frame := writeReg_frame (regAt off) v s.block
    rw [← write] at frame
    refine frame.imp_right ?_
    rintro ⟨digest, counter, trunc, code, codeStr, ctx, din, digits, interval, ts, irqEn⟩
    exact ⟨din.imp_right (wrote fun r => ∃ j, r = .din j), digits.imp_right (wrote (· = .cfg)),
      interval.imp_right (wrote (· = .interval)), ts.imp_right (wrote fun r => r = .tsLo ∨ r = .tsHi),
      irqEn.imp_right (wrote (· = .ctrl)), .inl digest, .inl counter, .inl ⟨trunc, code, codeStr⟩, .inl ctx⟩
  · right
    have completed : ∀ {P : Instr → Prop}, P i → completes P := fun p => ⟨v, i, turn, pending, dec, p⟩
    rw [show b' = _ from completion]
    exact ⟨.inl (effect_din i b), .inl (effect_digits i b), .inl (effect_interval i b), .inl (effect_ts i b),
      .inl (effect_irqEn i b), (effect_digest i b).imp_right completed, (effect_counter i b).imp_right completed,
      (effect_truncates i b).imp_right fun ⟨truncates, _⟩ => completed truncates,
      (effect_ctx i b).imp_right completed⟩

end Sys2Proof.Machine
end

section
/-! One step of an agent (20_memory.md R61 to R70): what the head of the inputs makes of it, which accesses the bus
serves, and what the engine does with PENDING. -/

namespace Sys2Proof.Machine

/-! ### The agent that moves -/

theorem step_of_empty {s : State} (inputs : s.inputs = []) : step s = engineStep s := by
  rw [step, inputs]

theorem step_of_engine {s : State} {rest : List Input} (inputs : s.inputs = .engine :: rest) :
    step s = engineStep { s with inputs := rest } := by
  rw [step, inputs]; rfl

theorem step_of_host {s : State} {a : Access} {rest : List Input} (inputs : s.inputs = .host a :: rest) :
    step s = hostStep a { s with inputs := rest } := by
  rw [step, inputs]; rfl

/-! ### The engine -/

theorem engineStep_of_idle {s : State} (idle : s.block.pending = none) : engineStep s = .next s := by
  rw [engineStep, idle]

theorem engineStep_of_pending {s : State} {v : Word} {i : Instr} (pending : s.block.pending = some v)
    (dec : decode v = .ok i) : engineStep s = exec i s := by
  simp only [engineStep, pending, dec]

/-! ### The bus -/

/-- The accesses of R61. -/
theorem served_iff (off : BitVec 8) (size : Nat) : served off size = true ↔ size = 32 ∧ off.toNat % 4 = 0 := by
  simp [served]

theorem hostStep_read {off : BitVec 8} {size : Nat} (ok : served off size = true) (s : State) :
    hostStep (.read off size) s = .next { s with
      lastRead := some (readReg (regAt off) s.block (Config.draw s.drawSource s.draws))
      draws := s.draws + 1 } :=
  if_pos ok

theorem hostStep_write {off : BitVec 8} {size : Nat} (ok : served off size = true) (v : Word) (s : State) :
    hostStep (.write off size v) s = .next { s with block := writeReg (regAt off) v s.block } :=
  if_pos ok

/-- An access the bus does not serve is a fault (R62). -/
theorem hostStep_of_not_ok {a : Access} (bad : a.ok = false) (s : State) :
    hostStep a s = .fault (.busError s.block) := by
  cases a with
  | read off size => exact if_neg (Bool.eq_false_iff.mp bad)
  | write off size v => exact if_neg (Bool.eq_false_iff.mp bad)

/-! ### The obligations -/

/-- Settles O28: the engine moves at its turn or with no input left, and PENDING decides what it does. -/
theorem engineStepRunsPending : Obligations.EngineStepRunsPending := by
  intro s v i rest
  refine ⟨fun turn pending dec => ?_, fun empty pending dec => ?_, fun turn idle => ?_, fun empty idle => ?_⟩
  · rw [step_of_engine turn]; exact engineStep_of_pending pending dec
  · rw [step_of_empty empty]; exact engineStep_of_pending pending dec
  · rw [step_of_engine turn]; exact engineStep_of_idle idle
  · rw [step_of_empty empty]; exact engineStep_of_idle idle

/-- Settles O29: a 32-bit access at an aligned offset is served. -/
theorem hostStepAccesses : Obligations.HostStepAccesses := by
  intro s off v rest aligned
  have ok : served off 32 = true := (served_iff off 32).mpr ⟨rfl, aligned⟩
  refine ⟨fun input => ?_, fun input => ?_⟩
  · rw [step_of_host input, hostStep_write ok]
  · rw [step_of_host input, hostStep_read ok]

/-- Settles O30: an access of another width or alignment is not served. -/
theorem badAccessIsBusError : Obligations.BadAccessIsBusError := by
  intro s off size v rest a access input bad
  have notServed : served off size = false :=
    Bool.eq_false_iff.mpr fun ok => by have := (served_iff off size).mp ok; omega
  rw [step_of_host input]
  refine hostStep_of_not_ok ?_ _
  obtain rfl | rfl := access
  · exact notServed
  · exact notServed

end Sys2Proof.Machine
end

section
/-! The access rules of the registers (20_memory.md R63, R69, R70): what ignores a write, and what a read tells while
BUSY = 1. -/

namespace Sys2Proof.Machine

@[simp] theorem readReg_cmd (b : Block) (d : Draw) : readReg .cmd b d = 0 := readReg_not_result rfl b d

@[simp] theorem readReg_id (b : Block) (d : Draw) : readReg .id b d = 0x53484131 := readReg_not_result rfl b d

@[simp] theorem readReg_reserved (b : Block) (d : Draw) : readReg .reserved b d = 0 := readReg_not_result rfl b d

/-- While BUSY = 1 a result register reads the draw (R69). -/
theorem readReg_of_busy {r : Reg} (result : r.isResult = true) {b : Block} (busy : b.pending ≠ none) (d : Draw) :
    readReg r b d = d.word := by
  rw [readReg, (busy_eq_true_iff b).mpr busy, result]; rfl

/-- A write to a register that is neither frozen while BUSY = 1 nor CTRL nor STATUS changes nothing (R63). -/
theorem writeReg_of_readOnly {r : Reg} (frozen : r.isFrozen = false) (ctrl : r ≠ .ctrl) (status : r ≠ .status)
    (v : Word) (b : Block) : writeReg r v b = b := by
  rw [writeReg_not_frozen r v b frozen]
  cases r with
  | ctrl => exact absurd rfl ctrl
  | status => exact absurd rfl status
  | cmd | cfg | interval | tsLo | tsHi | din => cases frozen
  | _ => rfl

/-- Settles O43: none of the registers is frozen, CTRL or STATUS. -/
theorem readOnlyIgnoresWrites : Obligations.ReadOnlyIgnoresWrites := by
  intro b v r readOnly
  refine ⟨?_, fun d => ⟨readReg_reserved b d, readReg_cmd b d⟩⟩
  have other : r.isFrozen = false ∧ r ≠ .ctrl ∧ r ≠ .status := by
    rcases readOnly with rfl | rfl | rfl | rfl | ⟨j, rfl⟩ | rfl | rfl | ⟨k, rfl⟩ | ⟨k, rfl⟩ | rfl | rfl <;>
      exact ⟨rfl, nofun, nofun⟩
  obtain ⟨frozen, ctrl, status⟩ := other
  exact writeReg_of_readOnly frozen ctrl status v b

/-- While BUSY = 1 a register that is no result tells IRQ_EN, DONE, ERR and the host's own registers only (R237). -/
theorem regValue_busy_congr {r : Reg} (result : r.isResult = false) {b b' : Block} (busy : b.pending ≠ none)
    (busy' : b'.pending ≠ none) (irqEn : b.irqEn = b'.irqEn) (done : b.done = b'.done) (err : b.err = b'.err)
    (digits : b.digits = b'.digits) (interval : b.interval = b'.interval) (ts : b.ts = b'.ts) (din : b.din = b'.din)
    (d : Draw) : regValue r b d = regValue r b' d := by
  cases r with
  | ctrl => simp only [regValue, ctrlWord, irqEn]
  | status =>
    rw [← busy_eq_true_iff] at busy busy'
    simp only [regValue, statusWord_eq, Block.irq, busy, busy', irqEn, done, err, if_true]
  | cfg => simp only [regValue, digits]
  | interval => exact interval
  | tsLo | tsHi => simp only [regValue, ts]
  | din j => simp only [regValue, din]
  | cmd | id | reserved => rfl
  | counterLo | counterHi | trunc | code | codeStr | mlenLo | mlenHi | digest | hstate => cases result

/-- Settles O47: a result register reads the draw, and the others read what the host may know. -/
theorem busyReadsHideResults : Obligations.BusyReadsHideResults := by
  refine ⟨?_, ?_, ?_⟩
  · intro r b b' d busy busy' irqEn done err digits interval ts din
    cases result : r.isResult with
    | true => rw [readReg_of_busy result busy, readReg_of_busy result busy']
    | false =>
      rw [readReg_not_result result, readReg_not_result result]
      exact regValue_busy_congr result busy busy' irqEn done err digits interval ts din d
  · intro r b d busy register
    have result : r.isResult = true := by
      rcases register with rfl | rfl | rfl | rfl | ⟨j, rfl⟩ | rfl | rfl | ⟨k, rfl⟩ | ⟨k, rfl⟩ <;> rfl
    exact readReg_of_busy result busy d
  · intro b d _
    refine ⟨readReg_ctrl b d, ?_, readReg_interval b d, ?_, ?_, fun j => readReg_din j b d, readReg_id b d,
      readReg_cmd b d, readReg_reserved b d⟩
    · rw [readReg_cfg]; exact BitVec.toNat_setWidth_of_le (by omega)
    · rw [readReg_tsLo, lo32_toNat]
    · rw [readReg_tsHi, hi32_toNat]

end Sys2Proof.Machine
end

section
/-! Accesses between a command's acceptance and its completion (20_memory.md R67, R70, R73): they reach IRQ_EN, DONE and
ERR only, and no command reads those. -/

namespace Sys2Proof.Machine

/-- The blocks differ at most in IRQ_EN, DONE and ERR. -/
def Block.SameButFlags (b b' : Block) : Prop :=
  ∃ irqEn done err, b' = { b with irqEn := irqEn, done := done, err := err }

theorem Block.SameButFlags.refl (b : Block) : b.SameButFlags b := ⟨b.irqEn, b.done, b.err, rfl⟩

theorem Block.SameButFlags.trans {b b' b'' : Block} (same : b.SameButFlags b') (same' : b'.SameButFlags b'') :
    b.SameButFlags b'' := by
  obtain ⟨_, _, _, rfl⟩ := same
  obtain ⟨irqEn, done, err, rfl⟩ := same'
  exact ⟨irqEn, done, err, rfl⟩

theorem Block.SameButFlags.pending {b b' : Block} (same : b.SameButFlags b') : b'.pending = b.pending := by
  obtain ⟨_, _, _, rfl⟩ := same; rfl

/-- No command reads IRQ_EN, DONE or ERR. -/
theorem Block.SameButFlags.effect {b b' : Block} (same : b.SameButFlags b') (i : Instr) :
    (Machine.effect i b).SameButFlags (Machine.effect i b') := by
  obtain ⟨irqEn, done, err, rfl⟩ := same
  exact ⟨irqEn, done, err, by cases i <;> rfl⟩

/-- A write while BUSY = 1 that is no soft reset: ignored with ERR at most, or one of CTRL or STATUS (R70). -/
theorem writeReg_busy_sameButFlags {r : Reg} {v : Word} (noReset : r = .ctrl → v.getLsbD 0 = false) {b : Block}
    (busy : b.busy = true) : b.SameButFlags (writeReg r v b) := by
  cases frozen : r.isFrozen with
  | true => rw [writeReg_frozen r v b busy frozen]; exact ⟨_, _, _, rfl⟩
  | false =>
    by_cases ctrl : r = .ctrl
    · subst ctrl
      rw [writeReg_ctrl]
      obtain ⟨srst, -⟩ | ⟨-, -, e⟩ | ⟨-, -, e⟩ := writeCtrl_cases v b
      · exact absurd srst (Bool.eq_false_iff.mp (noReset rfl))
      · exact ⟨_, _, _, e⟩
      · exact ⟨_, _, _, e⟩
    · by_cases status : r = .status
      · subst status
        rw [writeReg_status, writeStatus_eq]; exact ⟨_, _, _, rfl⟩
      · rw [writeReg_of_readOnly frozen ctrl status]; exact .refl b

/-- A quiet input while BUSY = 1 is served and leaves the block but for its flags. -/
theorem step_of_quiet {s : State} {x : Input} {rest : List Input} (inputs : s.inputs = x :: rest)
    (quiet : x.quiet = true) (busy : s.block.busy = true) :
    ∃ t, step s = .next t ∧ t.inputs = rest ∧ s.block.SameButFlags t.block := by
  match x, inputs, quiet with
  | .host (.read off size), inputs, ok =>
    exact ⟨_, (step_of_host inputs).trans (hostStep_read ok _), rfl, .refl _⟩
  | .host (.write off size v), inputs, quiet =>
    obtain ⟨ok, noReset⟩ : served off size = true ∧ (regAt off = .ctrl → v.getLsbD 0 = false) := by
      simpa [Input.quiet, imp_iff_not_or] using quiet
    exact ⟨_, (step_of_host inputs).trans (hostStep_write ok v _), rfl, writeReg_busy_sameButFlags noReset busy⟩

/-- Quiet inputs, one after another, with a command pending. -/
theorem run_quiet {before after : List Input} {s : State} (inputs : s.inputs = before ++ after)
    (quiet : ∀ x ∈ before, x.quiet = true) (busy : s.block.busy = true) :
    ∃ t : State, t.inputs = after ∧ s.block.SameButFlags t.block ∧
      ∀ k, Host.Core.run core (before.length + k) s = Host.Core.run core k t := by
  induction before generalizing s with
  | nil => exact ⟨s, inputs, .refl _, fun k => by rw [List.length_nil, Nat.zero_add]⟩
  | cons x before ih =>
    obtain ⟨quiet_x, quiet⟩ := List.forall_mem_cons.mp quiet
    obtain ⟨t, next, inputs, same⟩ := step_of_quiet inputs quiet_x busy
    have busy_t : t.block.busy = true := by rw [Block.busy, same.pending]; exact busy
    obtain ⟨u, inputs, same', run⟩ := ih inputs quiet busy_t
    refine ⟨u, inputs, same.trans same', fun k => ?_⟩
    rw [List.length_cons, Nat.add_right_comm, run_cons next, run]

/-- Settles O57: the accesses leave the block but for its flags, which the command does not read. -/
theorem effectIgnoresInterleaving : Obligations.EffectIgnoresInterleaving := by
  intro s v i before rest pending dec inputs quiet
  have busy : s.block.busy = true := by rw [Block.busy, pending]; rfl
  obtain ⟨t, turn, same, run⟩ := run_quiet inputs quiet busy
  have held : t.block.pending = some v := same.pending.trans pending
  have completes : step t = .next { t with inputs := rest, block := complete (effect i t.block) } := by
    rw [step_of_engine turn, engineStep_of_pending (s := { t with inputs := rest }) held dec, exec_eq]
  obtain ⟨_, _, _, computes⟩ := same.effect i
  refine ⟨_, _, (run 1).trans (run_cons completes), exec_eq i s, rfl, rfl, rfl, ?_⟩
  simp only [computes, complete_ctx, complete_digest, complete_counter, complete_trunc, complete_code,
    complete_codeStr, complete_din, complete_digits, complete_interval, complete_ts, and_self]

end Sys2Proof.Machine
end

section
/-! Several instances (20_memory.md R75, 60_exceptions.md R219): a step of one changes its state alone. -/

namespace Sys2Proof.Machine

@[simp] theorem Platform.setState_length (p : Platform) (k : Nat) (s : State) : (p.setState k s).length = p.length :=
  List.length_modify _ _ _

theorem Platform.setState_getElem?_ne (p : Platform) {j k : Nat} (ne : j ≠ k) (s : State) :
    (p.setState k s)[j]? = p[j]? :=
  List.getElem?_modify_ne _ p ne.symm

theorem Platform.setState_getElem?_self (p : Platform) (k : Nat) (s : State) :
    (p.setState k s)[k]? = p[k]?.map fun i => { i with state := s } :=
  List.getElem?_modify_eq _ _ _

/-- What a platform step can do: nothing, where none is at `k`, or one step of the one that is. -/
theorem Platform.stepAt_next {p q : Platform} {k : Nat} (h : p.stepAt k = .next q) :
    (p[k]? = none ∧ q = p) ∨ ∃ i s, p[k]? = some i ∧ step i.state = .next s ∧ q = p.setState k s := by
  unfold Platform.stepAt at h
  split at h
  case h_1 absent => exact .inl ⟨absent, (Host.Outcome.next.inj h).symm⟩
  case h_2 i present =>
    split at h
    case h_1 s next => exact .inr ⟨i, s, present, next, (Host.Outcome.next.inj h).symm⟩
    case h_2 => cases h
    case h_3 => cases h

theorem Platform.ok_iff (p : Platform) :
    p.ok = true ↔ p ≠ [] ∧ (p.map Instance.page).Nodup ∧ ∀ i ∈ p, i.state.drawSource = i.page := by
  simp [Platform.ok, and_assoc]

/-- No window moves (R219). -/
@[simp] theorem Platform.setState_pages (p : Platform) (k : Nat) (s : State) :
    (p.setState k s).map Instance.page = p.map Instance.page := by
  apply List.ext_getElem?
  intro j
  rw [List.getElem?_map, List.getElem?_map]
  by_cases moved : j = k
  · subst moved
    rw [p.setState_getElem?_self, Option.map_map]; rfl
  · rw [p.setState_getElem?_ne moved]

/-- A state that draws from the source of the one it replaces keeps the platform well formed (R219). -/
theorem Platform.ok_setState {p : Platform} (ok : p.ok = true) {k : Nat} {i : Instance} (present : p[k]? = some i)
    {s : State} (source : s.drawSource = i.state.drawSource) : (p.setState k s).ok = true := by
  obtain ⟨ne, apart, own⟩ := p.ok_iff.mp ok
  refine (Platform.ok_iff _).mpr ⟨?_, by rwa [p.setState_pages], fun x mem => ?_⟩
  · rw [← List.length_pos_iff, p.setState_length, List.length_pos_iff]; exact ne
  · obtain ⟨j, at_j⟩ := List.mem_iff_getElem?.mp mem
    by_cases moved : j = k
    · subst moved
      rw [p.setState_getElem?_self, present] at at_j
      obtain rfl := Option.some.inj at_j
      exact source.trans (own i (List.mem_of_getElem? present))
    · rw [p.setState_getElem?_ne moved] at at_j
      exact own x (List.mem_of_getElem? at_j)

/-- Settles O59, by what a platform step can do. -/
theorem instancesShareNothing : Obligations.InstancesShareNothing := by
  intro p q k next
  obtain ⟨absent, rfl⟩ | ⟨i, s, present, moves, rfl⟩ := Platform.stepAt_next next
  · exact ⟨rfl, fun _ _ => rfl, fun i present => absurd (absent.symm.trans present) nofun, id⟩
  · refine ⟨p.setState_length k s, fun j ne => p.setState_getElem?_ne ne s, fun i' present' => ?_,
      fun ok => Platform.ok_setState ok present (step_drawSource moves)⟩
    obtain rfl : i = i' := Option.some.inj (present.symm.trans present')
    exact ⟨s, moves, by rw [p.setState_getElem?_self, present]; rfl⟩

end Sys2Proof.Machine
end

section
/-! The encoding (30_encoding.md R80 to R98): the fields of a command's word, when a word decodes, which opcodes
have a row, and how a command is written. -/

namespace Sys2Proof

/-! ### A word and its command -/

/-- A word is a command's encoding exactly when its fields are the command's (30_encoding.md R80, R84). -/
theorem encode_eq_iff (i : Instr) (v : Word) :
    encode i = v ↔ v.toNat < 65536 ∧ i.opcode = opcField v ∧ i.count = countField v := by
  have opc := i.opcode.isLt
  have count := i.count.isLt
  rw [← BitVec.toNat_inj, ← BitVec.toNat_inj, ← BitVec.toNat_inj, encode_toNat, opcField_toNat, countField_toNat]
  omega

theorem decode_of_noRow {v : Word} (small : v.toNat < 65536) (row : tableRow (opcField v) (countField v) = none) :
    decode v = .error .reservedOpcode := by
  rw [decode_of_small small, row]

theorem decode_of_nFormat {v : Word} {i : Instr} (small : v.toNat < 65536)
    (row : tableRow (opcField v) (countField v) = some i) (format : i.isNFormat = true) :
    decode v = if maxCount < (countField v).toNat then .error .countTooLarge else .ok i := by
  simp only [decode_of_small small, row, format, if_true]

theorem decode_of_zFormat {v : Word} {i : Instr} (small : v.toNat < 65536)
    (row : tableRow (opcField v) (countField v) = some i) (format : i.isNFormat = false) :
    decode v = if countField v ≠ 0 then .error .countNotZero else .ok i := by
  simp only [decode_of_small small, row, format, Bool.false_eq_true, if_false]

/-- What the encoding checks of R85 leave: a word with no reserved bit, in the row of a well-formed command with the
word's count. -/
theorem decode_eq_ok_iff (v : Word) (i : Instr) :
    decode v = .ok i ↔
      v.toNat < 65536 ∧ tableRow (opcField v) (countField v) = some i ∧ i.count = countField v ∧ i.WellFormed := by
  constructor
  · intro dec
    have small : v.toNat < 65536 := by
      by_contra large
      rw [decode_reservedBits (Nat.le_of_not_lt large)] at dec; cases dec
    cases row : tableRow (opcField v) (countField v) with
    | none => rw [decode_of_noRow small row] at dec; cases dec
    | some j =>
      obtain ⟨-, count_of_n, count_of_z⟩ := tableRow_fields row
      cases format : j.isNFormat with
      | true =>
        rw [decode_of_nFormat small row format] at dec
        split at dec
        case isTrue => cases dec
        case isFalse le =>
          cases dec
          exact ⟨small, rfl, count_of_n format, (wf_iff i).mpr fun _ => count_of_n format ▸ Nat.le_of_not_lt le⟩
      | false =>
        rw [decode_of_zFormat small row format] at dec
        split at dec
        case isTrue => cases dec
        case isFalse zero =>
          cases dec
          exact ⟨small, rfl, (count_of_z format).trans (not_not.mp zero).symm, (wf_iff i).mpr (by simp [format])⟩
  · rintro ⟨small, row, count, wf⟩
    obtain ⟨-, -, count_of_z⟩ := tableRow_fields row
    cases format : i.isNFormat with
    | true => rw [decode_of_nFormat small row format, if_neg (Nat.not_lt.mpr (count ▸ (wf_iff i).mp wf format))]
    | false => rw [decode_of_zFormat small row format, if_neg (not_not.mpr (count ▸ count_of_z format))]

/-- Settles O1: the row of a word is a command with the word's opcode, and a command is found in its own row. -/
theorem decodeIffEncode : Obligations.DecodeIffEncode := by
  intro v i
  rw [decode_eq_ok_iff, encode_eq_iff]
  constructor
  · rintro ⟨small, row, count, wf⟩
    exact ⟨wf, small, (tableRow_fields row).1, count⟩
  · rintro ⟨wf, small, opcode, count⟩
    exact ⟨small, opcode ▸ count ▸ tableRow_opcode i, count, wf⟩

/-- Settles O3: each word of the table decoded. -/
theorem encodingExamples : Obligations.EncodingExamples :=
  ⟨rfl, rfl, rfl, rfl, rfl, rfl, rfl, rfl, rfl, rfl, rfl, rfl⟩

/-! ### The rows of the opcode map -/

/-- The opcode column of R84. -/
theorem opcode_mem (i : Instr) :
    i.opcode.toNat ∈ [0x01, 0x02, 0x03, 0x04, 0x05, 0x11, 0x12, 0x13, 0x14, 0x15, 0x21, 0x22] := by
  cases i <;> simp [Instr.opcode]

/-- An opcode outside the table has no row (30_encoding.md R86). -/
theorem tableRow_reserved {opc : Byte} (n : Byte)
    (reserved : opc.toNat ∉ [0x01, 0x02, 0x03, 0x04, 0x05, 0x11, 0x12, 0x13, 0x14, 0x15, 0x21, 0x22]) :
    tableRow opc n = none := by
  cases row : tableRow opc n with
  | none => rfl
  | some i => exact absurd ((tableRow_fields row).1 ▸ opcode_mem i) reserved

/-- The Z-format rows of R84. -/
theorem tableRow_zFormat {opc : Byte} (n : Byte)
    (zFormat : opc.toNat ∈ [0x01, 0x03, 0x04, 0x05, 0x11, 0x13, 0x15, 0x21, 0x22]) :
    ∃ i, tableRow opc n = some i ∧ i.isNFormat = false := by
  simp only [List.mem_cons, List.not_mem_nil, or_false] at zFormat
  unfold tableRow
  rcases zFormat with h | h | h | h | h | h | h | h | h <;> rw [h] <;> exact ⟨_, rfl, rfl⟩

/-- The N-format rows of R84. -/
theorem tableRow_nFormat {opc : Byte} (n : Byte) (nFormat : opc.toNat ∈ [0x02, 0x12, 0x14]) :
    ∃ i, tableRow opc n = some i ∧ i.isNFormat = true := by
  simp only [List.mem_cons, List.not_mem_nil, or_false] at nFormat
  unfold tableRow
  rcases nFormat with h | h | h <;> rw [h] <;> exact ⟨_, rfl, rfl⟩

/-! ### How a command is written -/

theorem encode_eq_ofNat (i : Instr) : encode i = BitVec.ofNat 32 (i.opcode.toNat + 256 * i.count.toNat) := by
  rw [← encode_toNat, BitVec.ofNat_toNat, BitVec.setWidth_eq]

/-- A well-formed command is parsed from its own mnemonic and count. -/
theorem parse_mnemonic {i : Instr} (wf : i.WellFormed) :
    parse i.mnemonic (if i.isNFormat then some i.count.toNat else none) = some i := by
  cases i with
  | shaUpdate n | hmacKey n | hmacMsg n =>
    have le : n.toNat ≤ maxCount := of_decide_eq_true wf
    simp [parse, Instr.isNFormat, Instr.count, Instr.mnemonic, le]
  | _ => rfl

/-- What parses is well formed and has the mnemonic written. -/
theorem wf_of_parse {m : String} {c : Option Nat} {i : Instr} (h : parse m c = some i) :
    i.WellFormed ∧ i.mnemonic = m := by
  unfold parse at h
  split at h
  case h_1 => split at h <;> cases h <;> exact ⟨rfl, rfl⟩
  case h_2 n =>
    split at h
    case isFalse => cases h
    case isTrue le =>
      have count : (BitVec.ofNat 8 n).toNat ≤ maxCount := Nat.le_trans (Nat.mod_le _ _) le
      split at h <;> cases h <;> exact ⟨decide_eq_true count, rfl⟩

/-- Settles O4: a command and its written form name each other, and a command's word is `opc + 256·N`. -/
theorem commandSyntax : Obligations.CommandSyntax := by
  refine ⟨fun i wf => parse_mnemonic wf, fun m c i h => ?_⟩
  obtain ⟨wf, mnemonic⟩ := wf_of_parse h
  exact ⟨wf, mnemonic, by rw [assemble, h, Option.map_some, encode_eq_ofNat]⟩

end Sys2Proof
end

section
/-! The commands of 30_encoding.md at decode and completion (R85 to R88, R91, R92): which words are illegal, when every
check passes, what a command writes and the phase it leaves. -/

namespace Sys2Proof.Machine

/-! ### Rejection of an illegal word -/

/-- A word the decoder rejects is ILLEGAL (60_exceptions.md R201). -/
theorem presentCommand_of_error {v : Word} {e : DecodeError} {b : Block} (clear : b.err = .noError)
    (dec : decode v = .error e) : presentCommand v b = { b with err := .illegal, done := true } := by
  simp [presentCommand, raiseError, clear, dec]

/-- Settles O2: the fields as numbers say which check of R85 fails first. -/
theorem illegalWords : Obligations.IllegalWords := by
  intro v b clear opc low
  have opc_eq : (opcField v).toNat = opc := opcField_toNat v
  have count_eq : low → (countField v).toNat = v.toNat / 256 := fun small => by rw [countField_toNat]; omega
  refine ⟨decode_reservedBits, fun small reserved => ?opcode, fun small zFormat count => ?zero,
    fun small nFormat count => ?large, fun e dec => presentCommand_of_error clear dec⟩
  case opcode => exact decode_of_noRow small (tableRow_reserved _ (opc_eq ▸ reserved))
  case zero =>
    obtain ⟨i, row, format⟩ := tableRow_zFormat (countField v) (opc_eq ▸ zFormat)
    have ne : countField v ≠ 0 := fun zero => count (by rw [← count_eq small, zero]; rfl)
    rw [decode_of_zFormat small row format, if_pos ne]
  case large =>
    obtain ⟨i, row, format⟩ := tableRow_nFormat (countField v) (opc_eq ▸ nFormat)
    have large : maxCount < (countField v).toNat := count_eq small ▸ count
    rw [decode_of_nFormat small row format, if_pos large]

/-! ### Acceptance -/

/-- The Legal sets of R92 as the statements write them. -/
theorem legal_iff (i : Instr) (p : Phase) : legal i p = true ↔ phaseLegal i p := by
  cases i <;> simp [legal, phaseLegal]

/-- The length check of R85 as the statements write it. -/
theorem lengthAfter_le_iff (i : Instr) (b : Block) : lengthAfter i b ≤ Config.lmax ↔ lengthLegal i b := by
  cases i <;> simp [lengthAfter, lengthLegal, Config.lmax]

theorem usesDigits_iff (i : Instr) : usesDigits i = true ↔ i = .totpGen ∨ i = .totpTrunc := by
  cases i <;> simp [usesDigits]

theorem usesInterval_iff (i : Instr) : usesInterval i = true ↔ i = .totpGen := by
  cases i <;> simp [usesInterval]

/-- The checks of R85 on a well-formed command all pass. -/
theorem commandError_eq_none {i : Instr} {b : Block} (phase : legal i b.ctx.phase = true)
    (digits : usesDigits i = true → digitsOk b.digits = true) (interval : usesInterval i = true → b.interval ≠ 0)
    (length : lengthAfter i b ≤ Config.lmax) : commandError i b = none := by
  have noDigits : (usesDigits i && !digitsOk b.digits) = false := by simpa using digits
  have noInterval : (usesInterval i && b.interval == 0) = false := by simpa using interval
  simp only [commandError, phase, noDigits, noInterval, Nat.not_lt.mpr length, Bool.not_true,
    Bool.false_eq_true, if_false]

theorem presentCommand_of_ok {v : Word} {i : Instr} {b : Block} (clear : b.err = .noError) (dec : decode v = .ok i)
    (ok : commandError i b = none) : presentCommand v b = accept v b := by
  simp [presentCommand, clear, dec, ok]

/-- Settles O34: the checks written out are those of the decoder. -/
theorem commandAccepted : Obligations.CommandAccepted := by
  intro v i b idle clear dec phase digits interval length
  have ok : commandError i b = none :=
    commandError_eq_none ((legal_iff i _).mpr phase)
      (fun uses => (digitsOk_iff _).mpr (digits ((usesDigits_iff i).mp uses)))
      (fun uses => interval ((usesInterval_iff i).mp uses)) ((lengthAfter_le_iff i b).mpr length)
  rw [writeReg_of_idle _ _ idle]
  exact presentCommand_of_ok clear dec ok

/-! ### Completion -/

@[simp] theorem effect_err (i : Instr) (b : Block) : (effect i b).err = b.err := by cases i <;> rfl

/-- Settles O32: each clause names the commands whose row of R91 lists the field. -/
theorem commandFrame : Obligations.CommandFrame := by
  intro i s t next b b'
  have completion : b' = complete (effect i b) := congrArg State.block (exec_next next)
  rw [completion]
  refine ⟨⟨effect_irqEn i b, effect_err i b, effect_digits i b, effect_interval i b, effect_ts i b, effect_din i b⟩,
    fun notGen => (effect_counter i b).resolve_right notGen, fun notGen notTrunc => ?results,
    fun notSha notHmac notGen => ?digest, ?trunc, ?chain, fun n => ?absorb, ?final, fun n => ?key, ?start⟩
  case results =>
    exact (effect_truncates i b).resolve_right fun ⟨truncates, _⟩ => truncates.elim notGen notTrunc
  case digest =>
    exact (effect_digest i b).resolve_right fun writes => writes.elim notSha fun h => h.elim notHmac notGen
  case trunc => rintro rfl; rfl
  case chain => rintro (rfl | rfl) <;> rfl
  case absorb => rintro (rfl | rfl) <;> rfl
  case final => rintro rfl; exact ⟨rfl, shaFinal_len _⟩
  case key => rintro rfl; exact keyBytes_phase _ _
  case start => rintro rfl; rfl

/-- Settles O33: HMAC_KEY's bytes keep the phase, and every other command sets or keeps it by its row of R92. -/
theorem phaseAfterCommand : Obligations.PhaseAfterCommand := by
  intro i s t next
  rw [exec_next next]
  cases i with
  | hmacKey n => exact keyBytes_phase _ _
  | _ => rfl

end Sys2Proof.Machine
end

section
/-! The compression function (40_sha1.md R102 to R106) and the datapaths that compute it (R119): the words of the
schedule, the rounds as a sequence of working variables, and the window and the stages that follow them. -/

namespace Sys2Proof.Machine

/-! ### The rounds' table and the schedule -/

/-- Settles O5: each range of rounds takes its own branch of the two definitions. -/
theorem roundTable : Obligations.RoundTable := by
  intro t b c d
  refine ⟨fun le => ?_, fun ge le => ?_, fun ge le => ?_, fun ge le => ?_⟩
  · simp [roundF, roundK, show t < 20 by omega]
  · simp [roundF, roundK, show ¬ t < 20 by omega, show t < 40 by omega]
  · simp [roundF, roundK, show ¬ t < 20 by omega, show ¬ t < 40 by omega, show t < 60 by omega]
  · simp [roundF, roundK, show ¬ t < 20 by omega, show ¬ t < 40 by omega, show ¬ t < 60 by omega]

@[simp] theorem extendSchedule_length (k : Nat) (newest : List Word) :
    (extendSchedule k newest).length = newest.length + k := by
  induction k generalizing newest with
  | zero => rfl
  | succ k ih => rw [extendSchedule, ih, List.length_cons]; omega

/-- Extending a schedule keeps the words it has. -/
theorem extendSchedule_getD_old (k : Nat) {newest : List Word} {t : Nat} (lt : t < newest.length) :
    (extendSchedule k newest).reverse.getD t 0 = newest.reverse.getD t 0 := by
  induction k generalizing newest with
  | zero => rfl
  | succ k ih =>
    rw [extendSchedule, ih (Nat.lt_of_lt_of_le lt (Nat.le_succ _)), List.reverse_cons,
      List.getD_append _ _ _ _ (by simpa using lt)]

/-- Every word added to a schedule of at least 16 words follows the recurrence. -/
theorem extendSchedule_getD_new (k : Nat) {newest : List Word} {t : Nat} (enough : 16 ≤ newest.length)
    (ge : newest.length ≤ t) (lt : t < newest.length + k) :
    let w := (extendSchedule k newest).reverse
    w.getD t 0 = rotl (w.getD (t - 3) 0 ^^^ w.getD (t - 8) 0 ^^^ w.getD (t - 14) 0 ^^^ w.getD (t - 16) 0) 1 := by
  intro w
  induction k generalizing newest with
  | zero => omega
  | succ k ih =>
    by_cases first : t = newest.length
    · have older : ∀ i, 0 < i → i ≤ 16 → w.getD (t - i) 0 = newest.getD (i - 1) 0 := fun i pos le => by
        refine (extendSchedule_getD_old (k + 1) (newest := newest) (by omega)).trans ?_
        rw [List.getD_reverse _ (by omega)]
        congr 1; omega
      have added : w.getD t 0 = nextScheduleWord newest := by
        refine (extendSchedule_getD_old k (newest := nextScheduleWord newest :: newest) (by simp [first])).trans ?_
        simp [first]
      rw [added, older 3 (by omega) (by omega), older 8 (by omega) (by omega), older 14 (by omega) (by omega),
        older 16 (by omega) (by omega), nextScheduleWord]
    · exact ih (newest := nextScheduleWord newest :: newest) (by simp; omega) (by simp; omega) (by simp; omega)

@[simp] theorem schedule_length (m : Vector Byte 64) : (schedule m).length = 80 := by simp [schedule]

/-- The first 16 words of the schedule are the block's. -/
theorem schedule_getD_block (m : Vector Byte 64) {t : Nat} (lt : t < 16) :
    (schedule m).getD t 0 = (blockWords m)[t] := by
  rw [schedule, extendSchedule_getD_old _ (by simpa using lt), List.reverse_reverse,
    List.getD_eq_getElem _ _ (by simpa using lt), Vector.getElem_toList]

/-- The recurrence of the other 64, at word `t + 16`. -/
theorem schedule_getD_recurrence (m : Vector Byte 64) {t : Nat} (lt : t + 16 < 80) :
    (schedule m).getD (t + 16) 0
      = rotl ((schedule m).getD (t + 13) 0 ^^^ (schedule m).getD (t + 8) 0
          ^^^ (schedule m).getD (t + 2) 0 ^^^ (schedule m).getD t 0) 1 :=
  extendSchedule_getD_new 64 (by simp) (by simp) (by simpa using lt)

/-- Settles O6: the block's words are kept by the extension, whose words follow the recurrence. -/
theorem scheduleRecurrence : Obligations.ScheduleRecurrence := by
  refine fun m => ⟨schedule_length m, fun t lt => ?_, fun t ge lt => ?_⟩
  · rw [schedule_getD_block m lt, blockWords, Vector.getElem_ofFn]
  · obtain ⟨u, rfl⟩ := Nat.exists_eq_add_of_le' ge
    exact schedule_getD_recurrence m lt

/-! ### The rounds -/

/-- The rounds take any sequence of variables that follows them from its start to its end. -/
theorem rounds_eq (ws : List Word) (t : Nat) (vs : Nat → Vars)
    (step : ∀ i, i < ws.length → vs (t + i + 1) = round (t + i) (ws.getD i 0) (vs (t + i))) :
    rounds ws t (vs t) = vs (t + ws.length) := by
  induction ws generalizing t with
  | nil => rfl
  | cons w ws ih =>
    have first : vs (t + 1) = round t w (vs t) := step 0 (Nat.succ_pos _)
    rw [rounds, ← first, List.length_cons, ih (t + 1), Nat.add_right_comm, Nat.add_assoc]
    intro i lt
    have next := step (i + 1) (Nat.succ_lt_succ lt)
    rwa [List.getD_cons_succ, ← Nat.add_assoc, Nat.add_right_comm t i 1] at next

/-- `compress` is the final addition of the variables after 80 rounds over the schedule. -/
theorem compress_eq_addChain (h : Vector Word 5) (m : Vector Byte 64) (vs : Nat → Vars) (start : vs 0 = Vars.start h)
    (step : ∀ t, t < 80 → vs (t + 1) = round t ((schedule m).getD t 0) (vs t)) :
    compress h m = addChain h (vs 80) := by
  have run : rounds (schedule m) 0 (vs 0) = vs 80 := by
    rw [rounds_eq (schedule m) 0 vs fun i lt => ?_, schedule_length]
    rw [Nat.zero_add]
    exact step i (schedule_length m ▸ lt)
  rw [compress, ← start, run]

/-- Settles O7: the statement's variables start as H and follow the model's round. -/
theorem compressIsEightyRounds : Obligations.CompressIsEightyRounds :=
  fun h m vs start step => compress_eq_addChain h m vs start step

/-! ### The datapaths -/

theorem Micro.rounds_succ (k : Nat) (x : Micro) : Micro.rounds (k + 1) x = (Micro.rounds k x).round := by
  induction k generalizing x with
  | zero => rfl
  | succ k ih => rw [Micro.rounds, ih, Micro.rounds]

theorem Micro.rounds_add (j k : Nat) (x : Micro) : Micro.rounds (j + k) x = Micro.rounds k (Micro.rounds j x) := by
  induction k with
  | zero => rfl
  | succ k ih => rw [← Nat.add_assoc, Micro.rounds_succ, ih, Micro.rounds_succ]

/-- Clocks of `u` rounds each. -/
theorem Micro.clocks_eq_rounds (u k : Nat) (x : Micro) : Micro.clocks u k x = Micro.rounds (u * k) x := by
  induction k generalizing x with
  | zero => rfl
  | succ k ih => rw [Micro.clocks, ih, Nat.mul_succ, Nat.add_comm, Micro.rounds_add]

/-- Where a micro-state of the block `m` stands after `t` rounds: the window holds W[t..t+15], as far as the schedule
goes. -/
structure Micro.At (m : Vector Byte 64) (t : Nat) (x : Micro) : Prop where
  count  : x.t = t
  window : ∀ i (lt : i < 16), t + i < 80 → x.window[i] = (schedule m).getD (t + i) 0

theorem Micro.at_start (h : Vector Word 5) (m : Vector Byte 64) : (Micro.start h m).At m 0 where
  count := rfl
  window i lt _ := by rw [Nat.zero_add, schedule_getD_block m lt]; rfl

/-- The word shifted into the window is the schedule's next one. -/
theorem Micro.At.round {m : Vector Byte 64} {t : Nat} {x : Micro} (here : x.At m t) : x.round.At m (t + 1) := by
  refine ⟨congrArg (· + 1) here.count, fun i lt inside => ?_⟩
  rw [show x.round.window = shiftWindow x.window from rfl, shiftWindow, Vector.getElem_ofFn]
  by_cases kept : i + 1 < 16
  · rw [dif_pos kept, here.window (i + 1) kept (by omega), Nat.add_right_comm, Nat.add_assoc]
  · obtain rfl : i = 15 := by omega
    rw [dif_neg kept, here.window 13 (by omega) (by omega), here.window 8 (by omega) (by omega),
      here.window 2 (by omega) (by omega), here.window 0 (by omega) (by omega)]
    exact (schedule_getD_recurrence m inside).symm

theorem Micro.at_rounds (h : Vector Word 5) (m : Vector Byte 64) (t : Nat) :
    (Micro.rounds t (Micro.start h m)).At m t := by
  induction t with
  | zero => exact Micro.at_start h m
  | succ t ih => rw [Micro.rounds_succ]; exact ih.round

/-- A round of the datapath is the round over the schedule. -/
theorem Micro.At.round_vars {m : Vector Byte 64} {t : Nat} {x : Micro} (here : x.At m t) (lt : t < 80) :
    x.round.vars = Machine.round t ((schedule m).getD t 0) x.vars := by
  rw [show x.round.vars = Machine.round x.t x.window[0] x.vars from rfl, here.count, here.window 0 (by omega) lt,
    Nat.add_zero]

/-- 80 rounds of the datapath leave the variables of `compress`. -/
theorem addChain_rounds (h : Vector Word 5) (m : Vector Byte 64) :
    addChain h (Micro.rounds 80 (Micro.start h m)).vars = compress h m := by
  refine (compress_eq_addChain h m (fun t => (Micro.rounds t (Micro.start h m)).vars) rfl fun t lt => ?_).symm
  show (Micro.rounds (t + 1) (Micro.start h m)).vars = _
  rw [Micro.rounds_succ, (Micro.at_rounds h m t).round_vars lt]

/-- At a clock what a stage holds goes through the next stage's round. -/
theorem pipelineClock_getD_succ (input : Option Micro) (stages : List (Option Micro)) {j : Nat} (lt : j + 1 < 80) :
    (pipelineClock input stages).getD (j + 1) none = (stages.getD j none).map Micro.round := by
  simp only [pipelineClock, List.getD_eq_getElem?_getD, List.getElem?_map, List.getElem?_take, if_pos lt,
    List.getElem?_cons_succ]
  cases stages[j]? <;> rfl

/-- After `k` clocks what stage `j` held stands `k` stages on. -/
theorem pipelineDrain_getD (k : Nat) (stages : List (Option Micro)) {j : Nat} (lt : j + k < 80) :
    (pipelineDrain k stages).getD (j + k) none = (stages.getD j none).map (Micro.rounds k) := by
  induction k generalizing stages j with
  | zero => cases h : stages.getD j none <;> simpa [pipelineDrain, Micro.rounds] using h
  | succ k ih =>
    rw [pipelineDrain, show j + (k + 1) = j + 1 + k by omega, ih _ (by omega),
      pipelineClock_getD_succ _ _ (by omega), Option.map_map]
    rfl

/-- A block fed to an empty pipeline has made its `k + 1` rounds when it stands in stage `k`. -/
theorem pipeline_getD (k : Nat) (x : Micro) (lt : k < 80) :
    (pipelineDrain k (pipelineClock (some x) (List.replicate 80 none))).getD k none
      = some (Micro.rounds (k + 1) x) := by
  have moved := pipelineDrain_getD k (pipelineClock (some x) (List.replicate 80 none)) (j := 0) (by omega)
  rw [Nat.zero_add] at moved
  rw [moved]
  rfl

/-- Settles O8: both datapaths make the 80 rounds, the loop in 80/u clocks and the pipeline in its 80 stages. -/
theorem datapathsComputeCompress : Obligations.DatapathsComputeCompress := by
  intro style h m ok
  cases style with
  | iterative u =>
    have divides : u ∣ 80 := by
      simp only [RoundStyle.ok, Bool.and_eq_true, beq_iff_eq] at ok
      exact Nat.dvd_of_mod_eq_zero ok.2
    rw [compressBy, Micro.clocks_eq_rounds, Nat.mul_div_cancel' divides, addChain_rounds]
  | pipeline80 =>
    simp only [compressBy, pipeline_getD 79 _ (by omega), Option.map_some, Nat.reduceAdd, addChain_rounds]

end Sys2Proof.Machine
end

section
/-! The SHA-1 commands (40_sha1.md R107 to R118): what enters the buffer with and without a fill, the two paddings, and
the streaming law. -/

namespace Sys2Proof.Machine

/-! ### SHA_INIT, SHA_COMPRESS and SHA_SETH -/

/-- Settles O11: the effect of SHA_INIT, completed, with `shaInit` written out. -/
theorem shaInitOpensContext : Obligations.ShaInitOpensContext :=
  fun s => exec_eq .shaInit s

/-- Settles O15: the effects of the two commands, completed. -/
theorem rawCompressAndLoad : Obligations.RawCompressAndLoad :=
  fun s => ⟨exec_eq .shaCompress s, exec_eq .shaSeth s⟩

/-! ### SHA_UPDATE and HMAC_MSG -/

/-- SHA_UPDATE N and HMAC_MSG N absorb their operand bytes and do nothing else (40_sha1.md R115, 41_hmac.md R151). -/
theorem exec_absorbing {n : Byte} {i : Instr} (absorbs : i = .shaUpdate n ∨ i = .hmacMsg n) (s : State) :
    exec i s = .next { s with block := { s.block with
      ctx := { s.block.ctx with hash := absorb (operandBytes s.block n) s.block.ctx.hash }
      pending := none
      done := true } } := by
  rcases absorbs with rfl | rfl
  · exact exec_eq (.shaUpdate n) s
  · exact exec_eq (.hmacMsg n) s

theorem operandBytes_length_of_le {n : Byte} (b : Block) (le : n.toNat ≤ 64) :
    (operandBytes b n).length = n.toNat := by rw [operandBytes_length, Nat.min_eq_left le]

/-- LEN grows by N (40_sha1.md R108). -/
theorem absorb_operandBytes_len {n : Byte} (b : Block) (le : n.toNat ≤ 64) (c : HashCtx) :
    (absorb (operandBytes b n) c).len = c.len + n.setWidth 64 := by
  rw [absorb_len, operandBytes_length_of_le b le, BitVec.ofNat_toNat]

/-- Bytes that do not fill the buffer. -/
theorem absorb_of_room (s : List Byte) (c : HashCtx) (room : c.bufcnt.val + s.length < 64) :
    (absorb s c).h = c.h ∧ (absorb s c).buf = overwrite c.buf c.bufcnt.val s := by
  rw [absorb_eq_padBytes, padBytes_of_room s c room]; exact ⟨rfl, rfl⟩

/-- Settles O12: bytes that do not fill the buffer are written into it. -/
theorem absorbWithoutFill : Obligations.AbsorbWithoutFill := by
  intro n i s absorbs old room
  have len : (operandBytes s.block n).length = n.toNat := operandBytes_length_of_le _ (by omega)
  obtain ⟨h, buf⟩ := absorb_of_room (operandBytes s.block n) old (by rwa [len])
  refine ⟨_, exec_absorbing absorbs s, h, ?bufcnt, absorb_operandBytes_len _ (by omega) _, fun k => ?buf⟩
  case bufcnt => rw [absorb_bufcnt, len, Nat.mod_eq_of_lt room]
  case buf =>
    have stored := overwrite_getElem old.buf old.bufcnt.val (operandBytes s.block n) k.val k.isLt
    rw [← buf, len] at stored
    refine stored.trans ?_
    by_cases new : old.bufcnt.val ≤ k.val ∧ k.val < old.bufcnt.val + n.toNat
    · rw [if_pos new, if_pos new, operandBytes_getD _ _ _ (by omega)]
    · rw [if_neg new, if_neg new]; rfl

/-- Bytes that fill the buffer once: the block made of BUF and the first of them is compressed, and the rest of them
start BUF. -/
theorem absorb_of_fill (s : List Byte) (c : HashCtx) (fill : 64 ≤ c.bufcnt.val + s.length)
    (once : c.bufcnt.val + s.length < 128) :
    (absorb s c).h = compress c.h (overwrite c.buf c.bufcnt.val (s.take (64 - c.bufcnt.val))) ∧
    (absorb s c).bufcnt.val = c.bufcnt.val + s.length - 64 ∧
    ∀ k (lt : k < c.bufcnt.val + s.length - 64),
      (absorb s c).buf[k]'(by omega) = s.getD (64 - c.bufcnt.val + k) 0 := by
  have cnt := c.bufcnt.isLt
  have rest : (s.drop (64 - c.bufcnt.val)).length = c.bufcnt.val + s.length - 64 := by rw [List.length_drop]; omega
  have room : (0 : Fin 64).val + (s.drop (64 - c.bufcnt.val)).length < 64 := by rw [rest, Fin.val_zero]; omega
  rw [absorb_eq_padBytes, padBytes_of_fill s c fill, padBytes_of_room _ _ room]
  refine ⟨rfl, ?_, fun k lt => ?_⟩
  · simp only [Fin.val_zero, Nat.zero_add, rest]
  · show (overwrite _ 0 _)[k] = _
    rw [overwrite_getElem, if_pos (by omega), Nat.sub_zero, List.getD_eq_getElem _ _ (by omega), List.getElem_drop,
      List.getD_eq_getElem]

/-- Settles O13: bytes that fill the buffer once make one compression. -/
theorem absorbWithFill : Obligations.AbsorbWithFill := by
  intro n i s absorbs le old dinb fill
  have cnt := old.bufcnt.isLt
  have len : (operandBytes s.block n).length = n.toNat := operandBytes_length_of_le _ le
  obtain ⟨h, bufcnt, buf⟩ := absorb_of_fill (operandBytes s.block n) old (by rwa [len]) (by omega)
  rw [len] at bufcnt
  refine ⟨_, exec_absorbing absorbs s, h.trans (congrArg _ (Vector.ext fun k lt => ?block)), bufcnt,
    absorb_operandBytes_len _ le _, fun k lt => ?rest⟩
  case block =>
    rw [overwrite_getElem, Vector.getElem_ofFn, List.length_take, len]
    by_cases held : k < old.bufcnt.val
    · rw [if_neg (by omega), if_pos held]; rfl
    · rw [if_pos (by omega), if_neg held, ← operandBytes_getD s.block n _ (by omega),
        List.getD_eq_getElem _ _ (by simp; omega), List.getElem_take, List.getD_eq_getElem]
  case rest =>
    rw [List.getD_eq_getElem _ _ (by simp; omega), Vector.getElem_toList, buf k (by omega),
      operandBytes_getD _ _ _ (by omega) (by omega), List.getD_eq_getElem _ _ (by simp; omega), Vector.getElem_toList]

/-! ### SHA_FINAL -/

/-- Bytes that end with the block: one compression, and the buffer is empty. -/
theorem padBytes_of_block (s : List Byte) (c : HashCtx) (ends : c.bufcnt.val + s.length = 64) :
    padBytes s c
      = { c with
          h := compress c.h (overwrite c.buf c.bufcnt.val s)
          buf := overwrite c.buf c.bufcnt.val s
          bufcnt := 0 } := by
  rw [padBytes_of_fill s c (by omega), List.drop_of_length_le (by omega), List.take_of_length_le (by omega),
    padBytes_nil]

/-- With BUFCNT above 55 the padding fills this block and takes one more (40_sha1.md R110). -/
theorem finalBytes_of_long (c : HashCtx) (ge : 56 ≤ c.bufcnt.val) :
    finalBytes c
      = (0x80 :: List.replicate (63 - c.bufcnt.val) 0) ++ (List.replicate 56 0 ++ be64 (c.len * 8)) := by
  have lt := c.bufcnt.isLt
  rw [finalBytes, show (119 - c.bufcnt.val) % 64 = 63 - c.bufcnt.val + 56 by omega, List.replicate_add,
    List.append_assoc, List.cons_append]

/-- A message whose last block has no room for the length finishes in two compressions (40_sha1.md R110). -/
theorem shaFinal_h_of_long (c : HashCtx) (ge : 56 ≤ c.bufcnt.val) :
    (shaFinal c).h = compress
      (compress c.h (Vector.ofFn fun k : Fin 64 =>
        if k.val < c.bufcnt.val then c.buf[k] else if k.val = c.bufcnt.val then 0x80 else 0))
      (Vector.ofFn fun k : Fin 64 => if k.val < 56 then 0 else (be64 (c.len * 8)).getD (k.val - 56) 0) := by
  have lt := c.bufcnt.isLt
  rw [shaFinal_eq_padBytes, finalBytes_of_long c ge, padBytes_append,
    padBytes_of_block (0x80 :: _) c (by simp; omega), padBytes_of_block _ _ (by simp)]
  refine congrArg₂ compress (congrArg _ (Vector.ext fun k hk => ?first)) (Vector.ext fun k hk => ?second)
  case first =>
    rw [overwrite_getElem, Vector.getElem_ofFn, List.length_cons, List.length_replicate]
    by_cases held : k < c.bufcnt.val
    · rw [if_neg (by omega), if_pos held]; rfl
    · rw [if_pos (by omega), if_neg held]
      by_cases e : k = c.bufcnt.val
      · rw [if_pos e, e, Nat.sub_self]; rfl
      · rw [if_neg e, show k - c.bufcnt.val = (k - c.bufcnt.val - 1) + 1 by omega, List.getD_cons_succ,
          List.getD_replicate _ (by omega)]
  case second =>
    rw [overwrite_getElem, Vector.getElem_ofFn, if_pos (by simp; omega), Fin.val_zero, Nat.sub_zero]
    by_cases zero : k < 56
    · rw [if_pos zero, List.getD_append _ _ _ _ (by simpa using zero), List.getD_replicate _ zero]
    · rw [if_neg zero, List.getD_append_right _ _ _ _ (by simpa using zero), List.length_replicate]

/-- SHA_FINAL leaves the final chaining state in DIGEST (40_sha1.md R116). -/
theorem exec_shaFinal (s : State) :
    exec .shaFinal s = .next { s with block := { s.block with
      digest := (shaFinal s.block.ctx.hash).h
      ctx := { s.block.ctx with hash := shaFinal s.block.ctx.hash, phase := .idle }
      pending := none
      done := true } } := by
  have digest := digestWords_digestBytes (shaFinal s.block.ctx.hash).h
  rw [exec_eq, effect, digest]
  rfl

/-- Settles O14: the padding takes one block or two. -/
theorem shaFinalPadsAndOutputs : Obligations.ShaFinalPadsAndOutputs :=
  fun s => ⟨_, exec_shaFinal s, shaFinal_bufcnt _, shaFinal_len _, shaFinal_h_of_short _, shaFinal_h_of_long _⟩

/-! ### The streaming law -/

/-- Settles O9: the context holds what was absorbed, in whatever pieces, and finishes with SHA-1 of it. The bounds are
not needed: beyond LMAX, LEN and the model's padding wrap alike (log 7). -/
theorem streamingLaw : Obligations.StreamingLaw := by
  refine ⟨fun pieces _ => ?primitives, fun d ms s _ _ => ?commands⟩
  case primitives => rw [foldl_absorb, shaFinal_absorb_init, sha1]
  case commands =>
    have opened := execAll_one d .shaInit s
    obtain ⟨t, fed, holds, len, -⟩ := execAll_feed_absorb (.inl rfl) ms []
      { s with block := complete (effect .shaInit { s.block with din := d }) } holds_shaInit rfl
    rw [shaCommands, List.append_assoc, execAll_append _ _ opened, execAll_append _ _ fed, execAll_one]
    refine ⟨_, rfl, ?_⟩
    show digestBytes (digestWords (digestBytes (shaFinal t.block.ctx.hash).h)) = _
    rw [digestBytes_digestWords, holds.shaFinal_h len, List.nil_append, sha1]

end Sys2Proof.Machine
end

section
/-! The HMAC commands (41_hmac.md R141 to R152): what HMAC_KEY holds and hashes, the inner and the outer pad, and the
HMAC law. -/

namespace Sys2Proof.Machine

/-! ### HMAC_INIT -/

/-- Settles O16: the effect of HMAC_INIT, completed, with `shaInit` written out. -/
theorem hmacInitOpensContext : Obligations.HmacInitOpensContext :=
  fun s => exec_eq .hmacInit s

/-! ### HMAC_KEY -/

/-- HMAC_KEY N takes its operand bytes as key bytes and does nothing else (41_hmac.md R149). -/
theorem exec_hmacKey (n : Byte) (s : State) :
    exec (.hmacKey n) s = .next { s with block := { s.block with
      ctx := keyBytes (operandBytes s.block n) s.block.ctx
      pending := none
      done := true } } := exec_eq (.hmacKey n) s

/-- Bytes beyond the end of the buffer are not written. -/
theorem overwrite_take (b : Vector Byte 64) (off : Nat) (s : List Byte) :
    overwrite b off (s.take (64 - off)) = overwrite b off s := by
  refine Vector.ext fun k hk => ?_
  rw [overwrite_getElem, overwrite_getElem, List.length_take]
  by_cases new : off ≤ k ∧ k < off + s.length
  · rw [if_pos (by omega), if_pos new, List.getD_eq_getElem _ _ (by rw [List.length_take]; omega), List.getElem_take,
      List.getD_eq_getElem]
  · rw [if_neg (by omega), if_neg new]

/-- The operand bytes written into the buffer from byte `off` on. -/
theorem overwrite_operandBytes {n : Byte} (le : n.toNat ≤ 64) (b : Block) (buf : Vector Byte 64) (off : Nat) :
    overwrite buf off (operandBytes b n) = Vector.ofFn fun k : Fin 64 =>
      if off ≤ k.val ∧ k.val < off + n.toNat then (dinBytes b.din)[k.val - off] else buf[k] := by
  refine Vector.ext fun k hk => ?_
  rw [overwrite_getElem, operandBytes_length_of_le b le, Vector.getElem_ofFn]
  by_cases new : off ≤ k ∧ k < off + n.toNat
  · rw [if_pos new, if_pos new, operandBytes_getD _ _ _ (by omega)]
  · rw [if_neg new, if_neg new]; rfl

/-- Settles O17: the closed forms of `keyBytes`, by whether the key fits, passes its 64th byte, or has passed it. -/
theorem hmacKeyHoldsOrHashes : Obligations.HmacKeyHoldsOrHashes := by
  intro n s le ctx held dinb max filled ends
  have len : (operandBytes s.block n).length = n.toNat := operandBytes_length_of_le _ le
  have bound : held + n.toNat < 2 ^ 64 := by rw [Config.lmax] at max; omega
  have buf : overwrite ctx.keybuf held (operandBytes s.block n) = filled := overwrite_operandBytes le _ _ _
  have count : BitVec.ofNat 64 n.toNat = n.setWidth 64 := BitVec.ofNat_toNat 64 n
  refine ⟨fun fits => ?held, fun before crosses => ?crossing, fun more => ?hashed⟩
  case held => rw [exec_hmacKey, keyBytes_of_room _ _ (by rwa [len]), len, count, buf]
  case crossing =>
    rw [exec_hmacKey, keyBytes_of_crossing _ _ before (by rwa [len]) (by rwa [len]), overwrite_take, len, count, buf]
    rfl
  case hashed =>
    rw [exec_hmacKey, keyBytes_of_hashed _ _ more (by rwa [len]), len, count]
    rfl

/-! ### HMAC_START -/

/-- K0 of a hashed key is the digest and 44 zero bytes (41_hmac.md R141). -/
theorem padKey_toList (d : Vector Byte 20) : (padKey d).toList = d.toList ++ List.replicate 44 0 := by
  refine List.ext_getElem (by simp) fun k hk _ => ?_
  simp only [padKey, Vector.getElem_toList, Vector.getElem_ofFn, List.getElem_append, List.getElem_replicate,
    Vector.length_toList]

/-- Settles O18: the inner pad is one whole block. -/
theorem hmacStartAbsorbsInnerPad : Obligations.HmacStartAbsorbsInnerPad := by
  intro s ctx
  have pad : (hmacStart ctx).hash = _ := absorb_block (xorAll (deriveK0 ctx) 0x36)
  refine ⟨deriveK0 ctx, (hmacStart ctx).hash, exec_eq .hmacStart s, fun short => ?held, fun long => ?hashed, ?pad⟩
  case held => rw [deriveK0, if_neg (by omega)]
  case hashed => rw [deriveK0, if_pos long, padKey_toList]
  case pad => rw [pad]; exact ⟨rfl, rfl, rfl⟩

/-! ### HMAC_FINAL -/

/-- HMAC_FINAL leaves the outer hash in H and DIGEST and clears the key (41_hmac.md R152). -/
theorem exec_hmacFinal (s : State) :
    exec .hmacFinal s = .next { s with block := { s.block with
      digest := (hmacFinal s.block.ctx).hash.h
      ctx := { hash := (hmacFinal s.block.ctx).hash, keybuf := zeros64, keylen := 0, phase := .idle }
      pending := none
      done := true } } := by
  have digest := digestWords_digestBytes (hmacFinal s.block.ctx).hash.h
  rw [exec_eq, effect, digest]
  rfl

/-- The digest of the inner hash, absorbed after the whole block of a pad. -/
theorem absorb_pad_digest (pad : Vector Byte 64) (d : Vector Byte 20) :
    absorb d.toList (absorb pad.toList shaInit)
      = { h := compress sha1IV pad, buf := overwrite pad 0 d.toList, bufcnt := 20, len := 84 } := by
  rw [absorb_block, absorb_eq_padBytes, padBytes_of_room _ _ (by simp)]
  simp

/-- The length of the outer message, 84 bytes or 672 bits (0x2A0), as the padding ends. -/
theorem be64_outerLength (k : Fin 8) :
    (be64 (84 * 8)).getD k.val 0 = if k.val = 6 then 0x02 else if k.val = 7 then 0xA0 else 0 := by
  revert k; decide

/-- H after `hmacFinal`: the outer pad, then one block of the inner digest and its padding (41_hmac.md R146). -/
theorem hmacFinal_h (c : Context) :
    let inner := digestBytes (shaFinal c.hash).h
    (hmacFinal c).hash.h = compress (compress sha1IV (xorAll c.keybuf 0x5C)) (Vector.ofFn fun k : Fin 64 =>
      if h : k.val < 20 then inner[k.val] else if k.val = 20 then 0x80
      else if k.val = 62 then 0x02 else if k.val = 63 then 0xA0 else 0) := by
  intro inner
  have outer : (hmacFinal c).hash = shaFinal _ := congrArg shaFinal (absorb_pad_digest (xorAll c.keybuf 0x5C) inner)
  rw [outer, shaFinal_h_of_short _ (show 20 ≤ 55 by omega)]
  refine congrArg (compress _) (Vector.ext fun k hk => ?_)
  simp only [Vector.getElem_ofFn, show (20 : Fin 64).val = 20 from rfl]
  by_cases digest : k < 20
  · rw [if_pos digest, dif_pos digest]
    refine (overwrite_getElem _ _ _ k hk).trans ?_
    rw [if_pos (by simpa using digest), Nat.sub_zero, List.getD_eq_getElem _ _ (by simpa using digest),
      Vector.getElem_toList]
  · rw [if_neg digest, dif_neg digest]
    by_cases length : k < 56
    · simp only [if_pos length, show k ≠ 62 by omega, show k ≠ 63 by omega, if_false]
    · have tail := be64_outerLength ⟨k - 56, by omega⟩
      rw [if_neg length, tail]
      simp only [show k - 56 = 6 ↔ k = 62 by omega, show k - 56 = 7 ↔ k = 63 by omega]

/-- Settles O19, by the closed form of the outer hash. -/
theorem hmacFinalOuterHash : Obligations.HmacFinalOuterHash :=
  fun s => ⟨_, exec_hmacFinal s, hmacFinal_h _, hmacFinal_bufcnt _, hmacFinal_len _⟩

/-! ### The HMAC law -/

/-- Settles O20: the key is held, then the inner pad and the message, whatever the pieces, and `hmacFinal` makes the
outer hash of them. Of the bounds only the key's is needed, since KEYLEN decides where a key byte goes; LEN and the
model's padding wrap alike (log 7). -/
theorem hmacLaw : Obligations.HmacLaw := by
  intro d ks ms s _ _ keyMax _
  have opened := execAll_one d .hmacInit s
  obtain ⟨keyed, ranKey, key, -⟩ := execAll_feed_key ks []
    { s with block := complete (effect .hmacInit { s.block with din := d }) } (holdsKey_init .hkey)
    (by rw [Config.lmax] at keyMax; simp only [List.length_nil]; omega)
  rw [List.nil_append] at key
  have k0 : deriveK0 keyed.block.ctx = keyBlock (piecesBytes ks) :=
    key.deriveK0 (by rw [Config.lmax] at keyMax; omega)
  have started := execAll_one d .hmacStart keyed
  obtain ⟨pad, padLen⟩ := hmacStart_holds keyed.block.ctx
  obtain ⟨told, ranMsg, message, len, keybuf⟩ := execAll_feed_absorb (.inr rfl) ms _
    { keyed with block := complete (effect .hmacStart { keyed.block with din := d }) } pad
    (padLen.trans (by simp))
  have kept : told.block.ctx.keybuf = keyBlock (piecesBytes ks) := keybuf.trans k0
  rw [hmacCommands, List.append_assoc, List.append_assoc, List.append_assoc, execAll_append _ _ opened,
    execAll_append _ _ ranKey, execAll_append _ _ started, execAll_append _ _ ranMsg, execAll_one]
  refine ⟨_, rfl, ?_⟩
  show digestBytes (digestWords (digestBytes (hmacFinal told.block.ctx).hash.h)) = _
  rw [digestBytes_digestWords, hmacFinal_digest message len, kept, k0, hmac]

end Sys2Proof.Machine
end

section
/-! The TOTP commands (42_totp.md R171 to R184): the truncated value, the code and its string as numbers, what
TOTP_TRUNC and TOTP_GEN complete with, and what the one-time password depends on. -/

namespace Sys2Proof.Machine

/-! ### The truncated value -/

/-- Settles O25: the offset and the packed word, as numbers. -/
theorem truncatedValue : Obligations.TruncatedValue := by
  intro d
  have offset := truncOffset_val d
  have byteAt : ∀ k (lt : k < 20), d.toList.getD k 0 = d[k] := fun k lt => by
    rw [List.getD_eq_getElem _ _ (by simpa using lt), Vector.getElem_toList]
  refine ⟨offset, ?_⟩
  rw [truncValue_eq_w32, w32_toNat, and_7F_toNat, ← offset, byteAt _ (by omega), byteAt _ (by omega),
    byteAt _ (by omega), byteAt _ (by omega)]

/-! ### The code string -/

/-- The code has at most `digits` decimal digits (42_totp.md R176). -/
theorem codeOf_lt_pow {digits : BitVec 4} (ok : digitsOk digits = true) (v : Word) :
    (codeOf v digits).toNat < 10 ^ digits.toNat := by
  rw [codeOf_toNat v digits ok]
  exact Nat.mod_lt _ (Nat.pow_pos (by omega))

/-- A character below `digits` is the ASCII digit of its weight in the code (42_totp.md R177). -/
theorem codeStrOf_digit {digits : BitVec 4} (ok : digitsOk digits = true) (v : Word) {k : Nat} (hk : k < 12)
    (lt : k < digits.toNat) :
    (strBytes (codeStrOf v digits))[k].toNat
      = 0x30 + (codeOf v digits).toNat / 10 ^ (digits.toNat - 1 - k) % 10 := by
  rw [codeStrOf_getElem v digits ok, codeChar_of_lt _ _ _ lt]

/-- The other characters are 0x00 (42_totp.md R178). -/
theorem codeStrOf_blank {digits : BitVec 4} (ok : digitsOk digits = true) (v : Word) {k : Nat} (hk : k < 12)
    (ge : digits.toNat ≤ k) : (strBytes (codeStrOf v digits))[k] = 0 := by
  rw [codeStrOf_getElem v digits ok, codeChar_of_ge _ _ _ ge]

/-- Settles O26, by the bounds of the offset, the value and the code, and the two kinds of characters. -/
theorem truncationBounds : Obligations.TruncationBounds := by
  intro d digits ge le
  have ok : digitsOk digits = true := (digitsOk_iff digits).2 ⟨ge, le⟩
  have value := truncValue_lt d
  refine ⟨by omega, by omega, codeOf_lt_pow ok _, fun k lt => ?_,
    fun k blank => codeStrOf_blank ok _ k.isLt blank⟩
  rw [Fin.getElem_fin, codeStrOf_digit ok _ k.isLt lt]
  omega

/-- The number a string of ASCII digits is read as, most significant digit first. -/
def decimalValue (s : List Byte) : Nat := s.foldl (fun n c => 10 * n + (c.toNat - 0x30)) 0

theorem decimalValue_concat (s : List Byte) (c : Byte) :
    decimalValue (s ++ [c]) = 10 * decimalValue s + (c.toNat - 0x30) := by simp [decimalValue]

/-- The first `k` characters of the code string read as the code without its last `digits - k` decimal places: each
further character brings in one place more. -/
theorem decimalValue_take_codeStrOf {digits : BitVec 4} (ok : digitsOk digits = true) (v : Word) {k : Nat}
    (le : k ≤ digits.toNat) :
    decimalValue ((strBytes (codeStrOf v digits)).toList.take k)
      = (codeOf v digits).toNat / 10 ^ (digits.toNat - k) := by
  induction k with
  | zero => exact (Nat.div_eq_of_lt (codeOf_lt_pow ok v)).symm
  | succ k ih =>
    have short : digits.toNat ≤ 9 := ((digitsOk_iff digits).1 ok).2
    have places : (codeOf v digits).toNat / 10 ^ (digits.toNat - k)
        = (codeOf v digits).toNat / 10 ^ (digits.toNat - 1 - k) / 10 := by
      rw [show digits.toNat - k = digits.toNat - 1 - k + 1 by omega, Nat.pow_succ, Nat.div_div_eq_div_mul]
    rw [List.take_succ_eq_append_getElem (by simp; omega), decimalValue_concat, ih (by omega), Vector.getElem_toList,
      codeStrOf_digit ok v (by omega) (by omega), places, show digits.toNat - (k + 1) = digits.toNat - 1 - k by omega]
    omega

/-- Settles O27, by the characters and what all `digits` of them read as. -/
theorem codeStringIsDecimal : Obligations.CodeStringIsDecimal := by
  intro v digits ge le
  have ok : digitsOk digits = true := (digitsOk_iff digits).2 ⟨ge, le⟩
  have code := codeOf_toNat v digits ok
  refine ⟨code, fun k => ?chars, ?numeral⟩
  case chars =>
    rw [Fin.getElem_fin, ← code]
    by_cases lt : k.val < digits.toNat
    · rw [if_pos lt, codeStrOf_digit ok v k.isLt lt]
    · rw [if_neg lt, codeStrOf_blank ok v k.isLt (by omega)]; rfl
  case numeral =>
    have whole := decimalValue_take_codeStrOf ok v (Nat.le_refl digits.toNat)
    rwa [Nat.sub_self, Nat.pow_zero, Nat.div_one] at whole

/-! ### TOTP_TRUNC -/

/-- Settles O24: the effect of TOTP_TRUNC, completed, with a legal digit count. -/
theorem totpTruncResult : Obligations.TotpTruncResult := by
  intro s ge le value code
  have ok : digitsOk s.block.digits = true := (digitsOk_iff _).2 ⟨ge, le⟩
  have codeEq : codeOf value s.block.digits = code := by rw [codeOf, if_pos ok]
  have strEq : codeStrOf value s.block.digits
      = strWords (Vector.ofFn fun k : Fin 12 => codeChar code s.block.digits k.val) := by
    rw [codeStrOf, if_pos ok, codeEq]
  rw [exec_eq, effect, truncate, codeEq, strEq]
  rfl

/-! ### TOTP_GEN -/

/-- The context TOTP_GEN finishes, before it closes the phase: the HMAC of the held key over the 8 counter bytes
(42_totp.md R172, R181). -/
def counterHmac (c : Context) (counter : U64) : Context :=
  hmacFinal { hmacStart c with hash := absorb (be64 counter) (hmacStart c).hash }

/-- Its digest, by the hash of whole byte strings (41_hmac.md R145, R146). -/
theorem counterHmac_digest (c : Context) (counter : U64) :
    digestBytes (counterHmac c counter).hash.h
      = sha1 ((xorAll (deriveK0 c) 0x5C).toList
          ++ (sha1 ((xorAll (deriveK0 c) 0x36).toList ++ be64 counter)).toList) := by
  obtain ⟨pad, padLen⟩ := hmacStart_holds c
  have len : (absorb (be64 counter) (hmacStart c).hash).len
      = BitVec.ofNat 64 ((xorAll (deriveK0 c) 0x36).toList ++ be64 counter).length := by
    rw [absorb_len, padLen]; simp
  exact hmacFinal_digest (pad.absorb (be64 counter)) len

/-- TOTP_GEN completes with the counter, its HMAC and the truncation of that, and clears the key (42_totp.md R181). -/
theorem exec_totpGen (s : State) :
    let counter := timeStep s.block.ts s.block.interval
    let new := (counterHmac s.block.ctx counter).hash
    let value := truncValue (digestBytes new.h)
    exec .totpGen s = .next { s with block := { s.block with
      counter := counter
      digest := new.h
      trunc := value
      code := codeOf value s.block.digits
      codeStr := codeStrOf value s.block.digits
      ctx := { hash := new, keybuf := zeros64, keylen := 0, phase := .idle }
      pending := none
      done := true } } := by
  intro counter new value
  have digest : digestWords (digestBytes new.h) = new.h := digestWords_digestBytes new.h
  rw [← digest, exec_eq]
  rfl

/-- Settles O21: the closed form of the completed command, with the interval and the digest in the terms of the
algorithm. The bounds of DIGITS are not needed: the statement names the model's own `codeOf` and `codeStrOf`. -/
theorem totpGenResult : Obligations.TotpGenResult := by
  intro s _ _ interval counter k0 out
  have counterEq : timeStep s.block.ts s.block.interval = counter := timeStep_of_ne _ _ interval
  have digest : digestBytes (counterHmac s.block.ctx counter).hash.h = out := counterHmac_digest _ _
  have gen := exec_totpGen s
  simp only [counterEq, digest] at gen
  exact ⟨_, gen, digest, hmacFinal_bufcnt _, hmacFinal_len _⟩

/-- One command of a sequence, by what it answers. -/
theorem execAll_one_of_exec {d : Vector Word 16} {i : Instr} {s t : State}
    (ran : exec i { s with block := { s.block with din := d } } = .next t) :
    execAll [{ din := d, cmd := i }] s = .next t := by
  rw [execAll, ran]; rfl

/-- Settles O22: the key is held, whatever the pieces, so its K0 is that of the secret; and no command before TOTP_GEN
changes DIGITS, INTERVAL or TS. -/
theorem totpLaw : Obligations.TotpLaw := by
  intro d ks s _ max ge le interval out
  rw [Config.lmax] at max
  have opened := execAll_one d .hmacInit s
  obtain ⟨keyed, ranKey, key, digitsEq, intervalEq, tsEq⟩ := execAll_feed_key ks []
    { s with block := complete (effect .hmacInit { s.block with din := d }) } (holdsKey_init .hkey)
    (by simp only [List.length_nil]; omega)
  rw [List.nil_append] at key
  simp only [complete_digits, complete_interval, complete_ts, effect_digits, effect_interval, effect_ts]
    at digitsEq intervalEq tsEq
  have k0 : deriveK0 keyed.block.ctx = keyBlock (piecesBytes ks) := key.deriveK0 (by omega)
  obtain ⟨new, ran, digest, -⟩ := totpGenResult { keyed with block := { keyed.block with din := d } }
    (by rwa [digitsEq]) (by rwa [digitsEq]) (by rwa [intervalEq])
  rw [totpCommands, List.append_assoc, execAll_append _ _ opened, execAll_append _ _ ranKey]
  refine ⟨_, execAll_one_of_exec ran, ?_⟩
  simp only [k0, digitsEq, intervalEq, tsEq, true_and] at digest ⊢
  exact ⟨digest, rfl, codeOf_toNat _ _ ((digitsOk_iff _).2 ⟨ge, le⟩), rfl⟩

/-! ### The step boundary -/

theorem timeStep_toNat (ts : U64) {interval : Word} (ne : interval ≠ 0) :
    (timeStep ts interval).toNat = ts.toNat / interval.toNat := by
  have fits : interval.toNat < 2 ^ 64 := by have := interval.isLt; omega
  rw [timeStep_of_ne ts interval ne, BitVec.toNat_udiv, BitVec.toNat_setWidth, Nat.mod_eq_of_lt fits]

/-- Settles O23: every result of TOTP_GEN is a function of the context, DIGITS and the counter. -/
theorem stepBoundary : Obligations.StepBoundary := by
  intro s s' t t' ctx digits interval ne quotient ran ran'
  have counter : timeStep s'.block.ts s'.block.interval = timeStep s.block.ts s.block.interval := by
    apply BitVec.eq_of_toNat_eq
    rw [interval, timeStep_toNat _ ne, timeStep_toNat _ ne, quotient]
  obtain rfl := Host.Outcome.next.inj ((exec_totpGen s).symm.trans ran)
  obtain rfl := Host.Outcome.next.inj ((exec_totpGen s').symm.trans ran')
  simp only [ctx, digits, counter, and_self]

end Sys2Proof.Machine
end

section
/-! Errors, completion and the interrupt line (60_exceptions.md R200 to R216): which check of R85 names the error, what
a rejected command changes, how long an error stands, and that no step of a good state sticks. -/

namespace Sys2Proof.Machine

/-! ### Which check fails first (R209) -/

theorem commandError_of_illegalPhase {i : Instr} {b : Block} (phase : legal i b.ctx.phase = false) :
    commandError i b = some .sequence := by
  simp [commandError, phase]

theorem commandError_of_badDigits {i : Instr} {b : Block} (phase : legal i b.ctx.phase = true)
    (uses : usesDigits i = true) (digits : digitsOk b.digits = false) : commandError i b = some .digits := by
  simp [commandError, phase, uses, digits]

theorem commandError_of_zeroInterval {i : Instr} {b : Block} (phase : legal i b.ctx.phase = true)
    (digits : digitsOk b.digits = true) (uses : usesInterval i = true) (interval : b.interval = 0) :
    commandError i b = some .interval := by
  simp [commandError, phase, digits, uses, interval]

/-- The commands that count bytes use neither DIGITS nor INTERVAL, so after the phase their length is checked. -/
theorem commandError_of_longLength {i : Instr} {b : Block} (phase : legal i b.ctx.phase = true)
    (long : Config.lmax < lengthAfter i b) : commandError i b = some .length := by
  have noDigits : usesDigits i = false := by
    cases i with
    | totpGen | totpTrunc => exact absurd long (Nat.not_lt_zero _)
    | _ => rfl
  have noInterval : usesInterval i = false := by
    cases i with
    | totpGen => exact absurd long (Nat.not_lt_zero _)
    | _ => rfl
  simp [commandError, phase, noDigits, noInterval, long]

/-! ### Rejection (R206) -/

/-- A command that fails a check is rejected with that check's error. -/
theorem presentCommand_of_commandError {v : Word} {i : Instr} {code : ErrCode} {b : Block} (clear : b.err = .noError)
    (dec : decode v = .ok i) (bad : commandError i b = some code) :
    presentCommand v b = { b with err := code, done := true } := by
  simp [presentCommand, raiseError, clear, dec, bad]

/-- While ERR is not 0 every command word is rejected (R208). -/
theorem presentCommand_of_err {b : Block} (err : b.err ≠ .noError) (v : Word) :
    presentCommand v b = { b with done := true } :=
  if_pos err

theorem writeReg_cmd_of_idle (v : Word) {b : Block} (idle : b.pending = none) :
    writeReg .cmd v b = presentCommand v b :=
  writeReg_of_idle .cmd v idle

/-- Settles O35: each clause names the first of the checks of R85 that fails. -/
theorem errorPriority : Obligations.ErrorPriority := by
  intro v b idle
  rw [writeReg_cmd_of_idle v idle]
  refine ⟨fun err => presentCommand_of_err err v, fun e clear dec => presentCommand_of_error clear dec,
    fun i clear dec phase => ?sequence, fun i clear dec phase uses digits => ?digits,
    fun clear dec phase ge le zero => ?interval, fun i clear dec phase long => ?length⟩
  all_goals refine presentCommand_of_commandError clear dec ?_
  case sequence =>
    exact commandError_of_illegalPhase (Bool.eq_false_iff.mpr fun ok => phase ((legal_iff i _).mp ok))
  case digits =>
    have bad : digitsOk b.digits = false :=
      Bool.eq_false_iff.mpr fun ok => by have := (digitsOk_iff _).mp ok; omega
    exact commandError_of_badDigits ((legal_iff i _).mpr phase) ((usesDigits_iff i).mpr uses) bad
  case interval =>
    exact commandError_of_zeroInterval ((legal_iff _ _).mpr phase) ((digitsOk_iff _).mpr ⟨ge, le⟩) rfl zero
  case length =>
    exact commandError_of_longLength ((legal_iff i _).mpr phase)
      (Nat.lt_of_not_le fun le => long ((lengthAfter_le_iff i b).mp le))

/-- Settles O36, by the three results of a word presented to the decoder. -/
theorem rejectionChangesNothing : Obligations.RejectionChangesNothing := by
  intro v b idle
  rw [writeReg_cmd_of_idle v idle]
  obtain ⟨err, rejected⟩ | ⟨clear, code, ne, rejected⟩ | ⟨-, i, -, -, accepted⟩ := presentCommand_cases v b
  · exact .inr ⟨b.err, err, rejected⟩
  · exact .inr ⟨code, ne, by rw [rejected, raiseError, if_pos clear]⟩
  · exact .inl accepted

/-! ### The error that stands (R207, R208) -/

theorem busyError_of_clear {b : Block} (clear : b.err = .noError) : busyError b = { b with err := .busy } := by
  rw [busyError, if_pos clear]

theorem busyError_of_err {b : Block} (err : b.err ≠ .noError) : busyError b = b := by
  rw [busyError, if_neg err]

/-- Settles O38: the registers listed are the frozen ones. -/
theorem busyWriteIgnored : Obligations.BusyWriteIgnored := by
  intro b v r busy register
  have frozen : r.isFrozen = true := by
    rcases register with rfl | rfl | rfl | rfl | rfl | ⟨j, rfl⟩ <;> rfl
  rw [writeReg_frozen r v b ((busy_eq_true_iff b).mpr busy) frozen]
  exact ⟨busyError_of_clear, busyError_of_err⟩

/-- With ERR not 0, a write as when BUSY = 0 keeps ERR, unless it is a soft reset or ERRCLR. -/
theorem storeReg_keeps_err {b : Block} (err : b.err ≠ .noError) (r : Reg) (v : Word) :
    storeReg r v b = Block.reset ∨ (storeReg r v b).err = b.err ∨ (r = .ctrl ∧ v.getLsbD 1 = true) := by
  cases r with
  | ctrl =>
    obtain ⟨-, reset⟩ | ⟨-, errclr, -⟩ | ⟨-, -, stored⟩ := writeCtrl_cases v b
    · exact .inl reset
    · exact .inr (.inr ⟨rfl, errclr⟩)
    · exact .inr (.inl (by rw [storeReg, stored]))
  | status => exact .inr (.inl (by rw [storeReg, writeStatus_eq]))
  | cmd => exact .inr (.inl (by rw [storeReg, presentCommand_of_err err]))
  | _ => exact .inr (.inl rfl)

/-- With ERR not 0, every write keeps ERR, unless it is a soft reset or ERRCLR: a BUSY error is not stored then. -/
theorem writeReg_keeps_err {b : Block} (err : b.err ≠ .noError) (r : Reg) (v : Word) :
    writeReg r v b = Block.reset ∨ (writeReg r v b).err = b.err ∨ (r = .ctrl ∧ v.getLsbD 1 = true) := by
  unfold writeReg
  split
  · exact .inr (.inl (congrArg Block.err (busyError_of_err err)))
  · exact storeReg_keeps_err err r v

/-- Settles O37, by what a step does to the block: only a reset and a register write can change ERR. -/
theorem firstErrorIsKept : Obligations.FirstErrorIsKept := by
  intro s t next err changed
  obtain same | reset | ⟨off, v, rest, input, write⟩ | ⟨v, i, -, -, -, completion⟩ := step_block next
  · exact absurd (congrArg Block.err same) changed
  · exact .inl reset
  · rw [write] at changed ⊢
    obtain reset | kept | ⟨ctrl, errclr⟩ := writeReg_keeps_err err (regAt off) v
    · exact .inl reset
    · exact absurd kept changed
    · exact .inr ⟨off, v, rest, input, ctrl, errclr⟩
  · exact absurd ((congrArg Block.err completion).trans (effect_err i s.block)) changed

/-! ### Completion (R210) -/

/-- Settles O31: a command's next state is its effect, completed, and no effect writes ERR. -/
theorem everyCommandCompletes : Obligations.EveryCommandCompletes := fun i s =>
  ⟨_, exec_eq i s, complete_pending _, complete_done _, effect_err i s.block, rfl, rfl, rfl, rfl⟩

/-- With nothing pending, or a command, the engine's step answers a next state. -/
theorem engineStep_answers {s : State} (ok : s.block.pendingOk = true) : ∃ t, engineStep s = .next t := by
  cases held : s.block.pending with
  | none => exact ⟨_, engineStep_of_idle held⟩
  | some v =>
    obtain ⟨i, dec, -⟩ := pendingOk_some ok held
    exact ⟨_, (engineStep_of_pending held dec).trans (exec_eq i s)⟩

theorem hostStep_answers {a : Access} (ok : a.ok = true) (s : State) : ∃ t, hostStep a s = .next t := by
  cases a with
  | read off size => exact ⟨_, hostStep_read ok s⟩
  | write off size v => exact ⟨_, hostStep_write ok v s⟩

/-- Settles O55: the engine, with nothing or a command pending, a served host access and a reset each answer. -/
theorem stepNeverSticks : Obligations.StepNeverSticks := by
  intro s inv ok
  cases inputs : s.inputs with
  | nil => rw [step_of_empty inputs]; exact engineStep_answers inv.pending_ok
  | cons x rest =>
    have ok_x : x.ok = true := ok x (by rw [inputs]; rfl)
    cases x with
    | engine => rw [step_of_engine inputs]; exact engineStep_answers (s := { s with inputs := rest }) inv.pending_ok
    | host a => rw [step_of_host inputs]; exact hostStep_answers ok_x _
    | hardReset => exact ⟨_, by rw [step, inputs]; rfl⟩

/-! ### The interrupt line (R212, R213) -/

@[simp] theorem raiseError_irq (code : ErrCode) (b : Block) : (raiseError code b).irq = b.irqEn := by simp [Block.irq]

theorem irq_of_not_done {b : Block} (done : b.done = false) : b.irq = false := by
  rw [Block.irq, done, Bool.and_false]

theorem irq_of_not_irqEn {b : Block} (irqEn : b.irqEn = false) : b.irq = false := by
  rw [Block.irq, irqEn, Bool.false_and]

/-- IRQ_EN written 0, with SRST or without. -/
theorem writeCtrl_irqEn_of_clear {v : Word} (clear : v.getLsbD 2 = false) (b : Block) :
    (writeCtrl v b).irqEn = false := by
  obtain ⟨-, e⟩ | ⟨-, -, e⟩ | ⟨-, -, e⟩ := writeCtrl_cases v b
  · rw [e]; rfl
  · rw [e]; exact clear
  · rw [e]; exact clear

/-- Settles O50: each event sets or clears one of the two factors. -/
theorem interruptLine : Obligations.InterruptLine := by
  intro b v code
  rw [writeReg_ctrl, writeReg_status]
  refine ⟨rfl, fun irqEn => ⟨?complete, ?reject⟩, fun done even set => ?enable, accept_irq v b,
    fun set => irq_of_not_done ?clearDone, fun clear => irq_of_not_irqEn ?disable⟩
  case complete => rw [complete_irq, irqEn]
  case reject => rw [raiseError_irq, irqEn]
  case enable => rw [writeCtrl_of_even even, Block.irq, decide_eq_true set, done]; rfl
  case clearDone => rw [writeStatus_eq, getLsbD_of_odd (i := 1) set, Bool.not_true, Bool.and_false]
  case disable => exact writeCtrl_irqEn_of_clear (getLsbD_of_even (i := 2) clear) b

/-! ### The key (R216) -/

/-- Settles O48: of the context STATUS reads PHASE and BUFCNT, MLEN reads LEN and HSTATE reads H; the other registers
read none of it. -/
theorem keyIsNeverReadable : Obligations.KeyIsNeverReadable := by
  intro r b d keybuf buf keylen
  cases r <;> rfl

end Sys2Proof.Machine
end

section
/-! Reset (70_reset_and_hazards.md R230 to R234), the completion of an accepted command (R244) and the compression
counts (R242, 41_hmac.md R153). -/

namespace Sys2Proof.Machine

/-! ### Reset -/

theorem step_of_hardReset {s : State} {rest : List Input} (inputs : s.inputs = .hardReset :: rest) :
    step s = .next { s with inputs := rest, block := Block.reset } := by
  rw [step, inputs]; rfl

/-- Settles O52: the hardware reset, and SRST written to the register at offset 0, CTRL. -/
theorem bothResets : Obligations.BothResets := by
  intro s v rest
  refine ⟨step_of_hardReset, fun input srst => ?_⟩
  have ctrl : regAt 0x00 = .ctrl := rfl
  rw [step_of_host input, hostStep_write rfl, ctrl, writeReg_ctrl, writeCtrl_srst srst]
  rfl

/-! ### Completion -/

/-- A step takes the head of the inputs. -/
theorem step_inputs {s t : State} (next : step s = .next t) : t.inputs = s.inputs.tail := by
  obtain ⟨inputs, moved⟩ | ⟨rest, inputs, moved⟩ | ⟨_, inputs, rfl⟩ | ⟨_, _, inputs, -, rfl⟩ |
    ⟨_, _, _, inputs, -, rfl⟩ := step_next next
  · obtain ⟨-, rfl⟩ | ⟨_, _, -, -, rfl⟩ := engineStep_next moved <;> simp only [inputs, List.tail_nil]
  · obtain ⟨-, rfl⟩ | ⟨_, _, -, -, rfl⟩ := engineStep_next moved <;> rw [inputs, List.tail_cons]
  all_goals rw [inputs, List.tail_cons]

/-- The command is over: PENDING is none after a completion, which sets DONE, or after a reset. -/
def Block.Settled (b : Block) : Prop := b.pending = none ∧ (b.done = true ∨ b = Block.reset)

theorem Block.settled_reset : Block.reset.Settled := ⟨rfl, .inr rfl⟩

theorem Block.settled_complete (b : Block) : (complete b).Settled := ⟨rfl, .inl rfl⟩

/-- A pending command is kept by a step, or it is over. -/
theorem step_pending {s t : State} (next : step s = .next t) (pending : s.block.pending ≠ none) :
    t.block.pending ≠ none ∨ t.block.Settled := by
  obtain same | reset | ⟨off, v, -, -, write⟩ | ⟨v, i, -, -, -, completion⟩ := step_block next
  · exact .inl (same ▸ pending)
  · exact .inr (reset ▸ Block.settled_reset)
  · rw [write]
    obtain reset | ⟨kept, -⟩ := writeReg_busy_frame (regAt off) v ((busy_eq_true_iff _).mpr pending)
    · exact .inr (reset ▸ Block.settled_reset)
    · exact .inl (kept ▸ pending)
  · exact .inr (completion ▸ Block.settled_complete _)

/-- With no input left the engine completes a pending command in the next step (70_reset_and_hazards.md R244). -/
theorem step_settles_of_empty {s : State} (ok : s.block.pendingOk = true) (pending : s.block.pending ≠ none)
    (inputs : s.inputs = []) : ∃ t, step s = .next t ∧ t.block.Settled := by
  obtain ⟨v, held⟩ := Option.ne_none_iff_exists'.mp pending
  obtain ⟨i, dec, -⟩ := pendingOk_some ok held
  exact ⟨_, (step_of_empty inputs).trans ((engineStep_of_pending held dec).trans (exec_eq i s)),
    Block.settled_complete _⟩

/-- Settles O58, by induction on the inputs to come: each step answers, keeps the invariants and takes one input, and the
command is over or stays pending; when none is left the engine completes it. -/
theorem acceptedCommandCompletes : Obligations.AcceptedCommandCompletes := by
  intro s inv pending ok
  induction inputs : s.inputs generalizing s with
  | nil =>
    obtain ⟨t, next, settled⟩ := step_settles_of_empty inv.pending_ok pending inputs
    exact ⟨1, t, Nat.le_refl 1, run_cons next, settled⟩
  | cons x rest ih =>
    obtain ⟨t, next⟩ := stepNeverSticks s inv fun y head => ok y (List.mem_of_mem_head? head)
    obtain pending_t | settled := step_pending next pending
    · have inputs_t : t.inputs = rest := by rw [step_inputs next, inputs, List.tail_cons]
      have ok_t : ∀ y ∈ t.inputs, y.ok = true := fun y mem => ok y (by
        rw [inputs, ← inputs_t]; exact List.mem_cons_of_mem x mem)
      obtain ⟨k, u, le, run, settled⟩ := ih t (stepKeepsInvariant s t inv next) pending_t ok_t inputs_t
      exact ⟨k + 1, u, Nat.succ_le_succ le, (run_cons next).trans run, settled⟩
    · exact ⟨1, t, Nat.le_add_left 1 _, run_cons next, settled⟩

/-! ### Compression counts -/

/-- Bytes entering the buffer: one compression for every 64 bytes held and entered (40_sha1.md R108). -/
theorem compressionsIn_eq_div (s : List Byte) (c : HashCtx) :
    compressionsIn s c = (c.bufcnt.val + s.length) / 64 := by
  induction s generalizing c with
  | nil => rw [compressionsIn, List.length_nil, Nat.add_zero, Nat.div_eq_of_lt c.bufcnt.isLt]
  | cons x s ih =>
    have lt := c.bufcnt.isLt
    rw [compressionsIn, ih, padByte_bufcnt, List.length_cons]
    split <;> omega

/-- 0x80 and the length are 9 bytes, and the zeros between them reach 56 modulo 64 (40_sha1.md R110). -/
theorem padding_length (n : Nat) : (padding n).length = (119 - n % 64) % 64 + 9 := by
  simp [padding]

/-- The padding takes a block more when BUFCNT is above 55 (40_sha1.md R110). -/
theorem compressionsIn_padding {c : HashCtx} (count : c.bufcnt.val = c.len.toNat % 64) :
    compressionsIn (padding c.len.toNat) c = finalFills c.bufcnt.val := by
  have lt := c.bufcnt.isLt
  rw [compressionsIn_eq_div, padding_length, ← count, finalFills]
  split <;> omega

/-- At most one block is filled by the bytes of one command. -/
theorem fills_of_le {cnt n : Nat} (lt : cnt < 64) (le : n ≤ 64) : fills cnt n = if 64 ≤ cnt + n then 1 else 0 := by
  rw [fills]; split <;> omega

/-- The key fits in KEYBUF (41_hmac.md R144). -/
theorem compressions_hmacKey_held {n : Byte} {b : Block} (fits : b.ctx.keylen.toNat + n.toNat ≤ 64) :
    compressions (.hmacKey n) b = 0 := if_pos fits

/-- The key passes its 64th byte: the held block, and the bytes after it. -/
theorem compressions_hmacKey_crossing {n : Byte} {b : Block} (held : b.ctx.keylen.toNat ≤ 64)
    (crosses : 64 < b.ctx.keylen.toNat + n.toNat) :
    compressions (.hmacKey n) b = 1 + fills 0 (b.ctx.keylen.toNat + n.toNat - 64) :=
  (if_neg (by omega)).trans (if_pos held)

/-- The key has passed its 64th byte and is being hashed. -/
theorem compressions_hmacKey_hashed {n : Byte} {b : Block} (hashed : 64 < b.ctx.keylen.toNat) :
    compressions (.hmacKey n) b = fills b.ctx.hash.bufcnt.val n.toNat :=
  (if_neg (by omega)).trans (if_neg (by omega))

theorem startFills_of_held {c : Context} (held : c.keylen.toNat ≤ 64) : startFills c = 1 := by
  rw [startFills, if_neg (by omega)]

theorem startFills_of_hashed {c : Context} (hashed : 64 < c.keylen.toNat) :
    startFills c = finalFills c.hash.bufcnt.val + 1 := by
  rw [startFills, if_pos hashed]

/-- The pads and the hashes of the HMAC (41_hmac.md R153): a pad is a whole block, after which the buffer is empty. -/
theorem compressionsIn_hmac (k0 : Vector Byte 64) (counter : U64) (inner : Vector Byte 20) :
    compressionsIn (xorAll k0 0x36).toList shaInit = 1 ∧
    compressionsIn (be64 counter ++ padding 72) (absorb (xorAll k0 0x36).toList shaInit) = 1 ∧
    compressionsIn ((xorAll k0 0x5C).toList ++ inner.toList ++ padding 84) shaInit = 2 := by
  have empty : shaInit.bufcnt.val = 0 := rfl
  simp only [compressionsIn_eq_div, absorb_bufcnt, List.length_append, Vector.length_toList, be64_length,
    padding_length, empty]
  decide

/-- Settles O60: the count on the buffer in closed form, and the table's rows by it. -/
theorem compressionCounts : Obligations.CompressionCounts := by
  refine ⟨compressionsIn_eq_div, fun c count => compressionsIn_padding count, compressionsIn_hmac, ?_⟩
  intro n b le cnt held
  have cnt_lt : cnt < 64 := b.ctx.hash.bufcnt.isLt
  have operand : (operandBytes b n).length = n.toNat := operandBytes_length_of_le b le
  have absorbs : fills cnt n.toNat = if 64 ≤ cnt + n.toNat then 1 else 0 := fills_of_le cnt_lt le
  refine ⟨⟨rfl, rfl, rfl, rfl, rfl⟩, ?update, absorbs, absorbs, rfl, compressions_hmacKey_held, ?crossing,
    ?crossingOnBuffer, ?hashed, startFills_of_held, startFills_of_hashed, ?start, rfl, rfl, ?gen⟩
  case update => rw [compressionsIn_eq_div, operand]; rfl
  case crossing =>
    intro le64 crosses
    rw [compressions_hmacKey_crossing le64 crosses, fills_of_le (by omega) (by omega)]
    congr 2
    exact propext (by omega)
  case crossingOnBuffer =>
    intro le64 crosses empty
    rw [compressions_hmacKey_crossing le64 crosses, compressionsIn_eq_div, List.length_append, Vector.length_toList,
      List.length_drop, operand, fills]
    omega
  case hashed => exact fun more => (compressions_hmacKey_hashed more).trans absorbs
  case start =>
    intro more count
    show startFills b.ctx = _
    rw [startFills_of_hashed more, finalFills, ← count]
    split <;> rfl
  case gen =>
    intro le64
    show startFills b.ctx + 1 + 2 = 4
    rw [startFills_of_held le64]

end Sys2Proof.Machine
end
